-- ==== Sys2Proof/Word.lean ====
section
/-! DEFINITION. The two word types of CHIP-8 CORE and the index types of its small register files. -/

namespace Sys2Proof

/-- An 8-bit byte: a V register, a timer, a memory cell (10_state.md R20, R26; 20_memory.md R40). -/
abbrev Byte := BitVec 8

/-- A 16-bit word: I, PC, a stack entry, an instruction word (10_state.md R22, R23, R24; 30_encoding.md R60). -/
abbrev Word := BitVec 16

/-- The index of a V register, 0..15; every value names a register (30_encoding.md R61). -/
abbrev Reg := Fin 16

/-- The index of a key line, 0..15 (10_state.md R29). -/
abbrev KeyIx := Fin 16

/-- V0, the implicit base of `JP V0, nnn` (10_state.md R20). -/
abbrev Reg.V0 : Reg := 0

/-- VF, the flag register (10_state.md R21). -/
abbrev Reg.VF : Reg := 15

end Sys2Proof
end

