-- ==== Sys2Proof/Config.lean ====
section
/-! DEFINITION. What is fixed for one core: the sizes of 00_scope.md R4, the Bool parameters of R4, and the
values the spec leaves free (constants without a body: nothing can be proved about which value they have). -/

namespace Sys2Proof

/-- `MEM_SIZE` (00_scope.md R4; 20_memory.md R40). -/
abbrev memSize : Nat := 4096

/-- `PROGRAM_BASE`: where the ROM is loaded and where PC starts (00_scope.md R4; 20_memory.md R41, R42). -/
abbrev programBase : Nat := 0x200

/-- The program region's capacity, 4096 − 0x200 bytes (20_memory.md R51). -/
abbrev romCapacity : Nat := 3584

/-- `STACK_DEPTH` (00_scope.md R4; 10_state.md R24). -/
abbrev stackDepth : Nat := 16

/-- `FB_H`, the rows of the framebuffer (00_scope.md R4; 10_state.md R28). -/
abbrev fbRows : Nat := 32

/-- `FB_W`, the columns of the framebuffer (00_scope.md R4; 10_state.md R28). -/
abbrev fbCols : Nat := 64

/-- The Bool parameters of 00_scope.md R4, with their defaults there. Log entry 2. -/
structure Params where
  /-- `P_AND_IS_OR`: 0x8xy2 decodes to OR (30_encoding.md R64). -/
  andIsOr : Bool := false
  /-- `P_SNE_READS_V0`: SNE Vx, Vy compares Vx with V0 (41_control_flow.md R92). -/
  sneReadsV0 : Bool := false
  /-- `P_LOWMEM_WRITE_FAULT`: a write that starts below 0x200 raises ReservedWrite (20_memory.md R50). -/
  lowmemWriteFault : Bool := false
deriving DecidableEq, Repr

/-- The random byte of draw number k: "a free draw under no law" (10_state.md R25). A FREE VALUE, log entry 4. -/
opaque Config.freeRandomByte : Nat → Byte

/-- `PIXEL_WORD_BITS`, left OPEN by 00_scope.md R4; only the output format uses it (10_state.md R28). Log entry 22. -/
opaque Config.pixelWordBits : Nat

end Sys2Proof
end

