-- ==== Sys2Proof/Syntax.lean ====
section
/-! DEFINITION. The instructions of CHIP-8 CORE: one constructor for each of the 35 rows of
spec/opcode_table.json, in the table's order (30_encoding.md R65). An operand named `pad` holds bits the
instruction ignores (30_encoding.md R67), kept so that an instruction determines its word (log entry 17). -/

namespace Sys2Proof

inductive Instr where
  /-- Row 1, `SYS nnn`, 0x0nnn with the low nibble neither 0 nor E (R85). -/
  | sys (nnn : BitVec 12)
  /-- Row 2, `CLS`, 0x0nn0 (R80). -/
  | cls (pad : Byte)
  /-- Row 3, `RET`, 0x0nnE (R86). -/
  | ret (pad : Byte)
  /-- Row 4, `JP nnn`, 0x1nnn (R87). -/
  | jp (nnn : BitVec 12)
  /-- Row 5, `CALL nnn`, 0x2nnn (R88). -/
  | call (nnn : BitVec 12)
  /-- Row 6, `SE Vx, kk`, 0x3xkk (R89). -/
  | seImm (x : Reg) (kk : Byte)
  /-- Row 7, `SNE Vx, kk`, 0x4xkk (R90). -/
  | sneImm (x : Reg) (kk : Byte)
  /-- Row 8, `SE Vx, Vy`, 0x5xyN for every N (R91). -/
  | seReg (x y : Reg) (pad : BitVec 4)
  /-- Row 9, `LD Vx, kk`, 0x6xkk (R100). -/
  | ldImm (x : Reg) (kk : Byte)
  /-- Row 10, `ADD Vx, kk`, 0x7xkk (R102). -/
  | addImm (x : Reg) (kk : Byte)
  /-- Row 11, `LD Vx, Vy`, 0x8xy0 (R101). -/
  | ldReg (x y : Reg)
  /-- Row 12, `OR Vx, Vy`, 0x8xy1 (R103). -/
  | orReg (x y : Reg)
  /-- Row 13, `AND Vx, Vy`, 0x8xy2 (R104). -/
  | andReg (x y : Reg)
  /-- Row 14, `XOR Vx, Vy`, 0x8xy3 (R105). -/
  | xorReg (x y : Reg)
  /-- Row 15, `ADD Vx, Vy`, 0x8xy4 (R106). -/
  | addReg (x y : Reg)
  /-- Row 16, `SUB Vx, Vy`, 0x8xy5 (R107). -/
  | sub (x y : Reg)
  /-- Row 17, `SHR Vx`, 0x8xy6, y ignored (R109). -/
  | shr (x : Reg) (pad : BitVec 4)
  /-- Row 18, `SUBN Vx, Vy`, 0x8xy7 (R108). -/
  | subn (x y : Reg)
  /-- Row 19, `SHL Vx`, 0x8xyE, y ignored (R110). -/
  | shl (x : Reg) (pad : BitVec 4)
  /-- Row 20, `SNE Vx, Vy`, 0x9xyN for every N (R92). -/
  | sneReg (x y : Reg) (pad : BitVec 4)
  /-- Row 21, `LD I, nnn`, 0xAnnn (R118). -/
  | ldI (nnn : BitVec 12)
  /-- Row 22, `JP V0, nnn`, 0xBnnn; the x field is the top nibble of nnn and names no register (R95). -/
  | jpV0 (nnn : BitVec 12)
  /-- Row 23, `RND Vx, kk`, 0xCxkk (R111). -/
  | rnd (x : Reg) (kk : Byte)
  /-- Row 24, `DRW Vx, Vy, n`, 0xDxyn (R81). -/
  | drw (x y : Reg) (n : BitVec 4)
  /-- Row 25, `SKP Vx`, 0xExyE for every y (R128). -/
  | skp (x : Reg) (pad : BitVec 4)
  /-- Row 26, `SKNP Vx`, 0xExy1 for every y (R129). -/
  | sknp (x : Reg) (pad : BitVec 4)
  /-- Row 27, `LD Vx, DT`, 0xFx07 (R131). -/
  | ldVxDt (x : Reg)
  /-- Row 28, `LD Vx, K`, 0xFx0A (R130). -/
  | ldVxK (x : Reg)
  /-- Row 29, `LD DT, Vx`, 0xFx15 (R132). -/
  | ldDtVx (x : Reg)
  /-- Row 30, `LD ST, Vx`, 0xFx18 (R133). -/
  | ldStVx (x : Reg)
  /-- Row 31, `ADD I, Vx`, 0xFx1E (R119). -/
  | addI (x : Reg)
  /-- Row 32, `LD F, Vx`, 0xFx29 (R120). -/
  | ldF (x : Reg)
  /-- Row 33, `LD B, Vx`, 0xFx33 (R121). -/
  | ldB (x : Reg)
  /-- Row 34, `LD [I], Vx`, 0xFx55 (R122). -/
  | ldMemVx (x : Reg)
  /-- Row 35, `LD Vx, [I]`, 0xFx65 (R123). -/
  | ldVxMem (x : Reg)
deriving DecidableEq, Repr

end Sys2Proof
end

