-- ==== Sys2Proof/WellFormed.lean ====
section
/-! DEFINITION. Which terms of `Instr` are instructions. The operand types hold exactly the values the encodings
admit (30_encoding.md R61, R62), so one condition remains: the words of `SYS nnn` exclude those of CLS and RET. -/

namespace Sys2Proof

/-- The low nibble of nnn is neither 0x0 (CLS) nor 0xE (RET) (41_control_flow.md R85). -/
def isSysOperand (nnn : BitVec 12) : Bool :=
  nnn.extractLsb' 0 4 != 0x0#4 && nnn.extractLsb' 0 4 != 0xE#4

/-- The instruction is one that some word encodes (30_encoding.md R65, the "matched by" column). -/
def Instr.wf : Instr → Bool
  | .sys nnn => isSysOperand nnn
  | .cls _ | .ret _ => true
  | .jp _ | .call _ | .jpV0 _ | .ldI _ => true
  | .seImm _ _ | .sneImm _ _ | .ldImm _ _ | .addImm _ _ | .rnd _ _ => true
  | .seReg _ _ _ | .sneReg _ _ _ | .drw _ _ _ => true
  | .ldReg _ _ | .orReg _ _ | .andReg _ _ | .xorReg _ _ => true
  | .addReg _ _ | .sub _ _ | .subn _ _ => true
  | .shr _ _ | .shl _ _ | .skp _ _ | .sknp _ _ => true
  | .ldVxDt _ | .ldVxK _ | .ldDtVx _ | .ldStVx _ => true
  | .addI _ | .ldF _ | .ldB _ | .ldMemVx _ | .ldVxMem _ => true

end Sys2Proof
end

