-- ==== Sys2Proof/Decode.lean ====
section
/-! DEFINITION. From words to instructions and back: the fields of a word (30_encoding.md R60), the total
decoder (R63, R64), which rejects by name the words that match no row (R66), the decoder on bytes (R43), and
the encoder, written from the "matched by" column of R65. -/

namespace Sys2Proof

/-! ## Fields (00_scope.md R5; 30_encoding.md R60) -/

/-- `op[15:12]`, the category. -/
def fieldCat (w : Word) : BitVec 4 := w.extractLsb' 12 4

/-- `op[11:8]`, the register index x. -/
def fieldX (w : Word) : Reg := (w.extractLsb' 8 4).toFin

/-- `op[7:4]` as bits, for the instructions that ignore it. -/
def fieldMid (w : Word) : BitVec 4 := w.extractLsb' 4 4

/-- `op[7:4]`, the register index y. -/
def fieldY (w : Word) : Reg := (fieldMid w).toFin

/-- `op[3:0]`, n. -/
def fieldN (w : Word) : BitVec 4 := w.extractLsb' 0 4

/-- `op[7:0]`, kk. -/
def fieldKk (w : Word) : Byte := w.extractLsb' 0 8

/-- `op[11:0]`, nnn. -/
def fieldNnn (w : Word) : BitVec 12 := w.extractLsb' 0 12

/-- `op[11:4]`, the byte that CLS and RET ignore (30_encoding.md R67). -/
def fieldPad (w : Word) : Byte := w.extractLsb' 4 8

/-! ## The decoder -/

/-- Why a word or a byte sequence is no instruction. -/
inductive DecodeReject where
  /-- The word matches no row of the opcode map: it executes as a no-op (30_encoding.md R66; log entry 18). -/
  | undefinedEncoding (w : Word)
  /-- Fewer than two bytes are left. -/
  | truncated
deriving DecidableEq, Repr

/-- Category 0x0, keyed by the low nibble (30_encoding.md R64). -/
def decodeCat0 (w : Word) : Instr :=
  match fieldN w with
  | 0x0#4 => .cls (fieldPad w)
  | 0xE#4 => .ret (fieldPad w)
  | _ => .sys (fieldNnn w)

/-- Category 0x8, keyed by the low nibble; 0x8xy2 decodes to OR under `P_AND_IS_OR` (30_encoding.md R64). -/
def decodeCat8 (p : Params) (w : Word) : Except DecodeReject Instr :=
  match fieldN w with
  | 0x0#4 => .ok (.ldReg (fieldX w) (fieldY w))
  | 0x1#4 => .ok (.orReg (fieldX w) (fieldY w))
  | 0x2#4 => .ok (if p.andIsOr then .orReg (fieldX w) (fieldY w) else .andReg (fieldX w) (fieldY w))
  | 0x3#4 => .ok (.xorReg (fieldX w) (fieldY w))
  | 0x4#4 => .ok (.addReg (fieldX w) (fieldY w))
  | 0x5#4 => .ok (.sub (fieldX w) (fieldY w))
  | 0x6#4 => .ok (.shr (fieldX w) (fieldMid w))
  | 0x7#4 => .ok (.subn (fieldX w) (fieldY w))
  | 0xE#4 => .ok (.shl (fieldX w) (fieldMid w))
  | _ => .error (.undefinedEncoding w)

/-- Category 0xE, keyed by the low nibble (30_encoding.md R64, R67). -/
def decodeCatE (w : Word) : Except DecodeReject Instr :=
  match fieldN w with
  | 0xE#4 => .ok (.skp (fieldX w) (fieldMid w))
  | 0x1#4 => .ok (.sknp (fieldX w) (fieldMid w))
  | _ => .error (.undefinedEncoding w)

/-- Category 0xF, keyed by the low byte (30_encoding.md R64). -/
def decodeCatF (w : Word) : Except DecodeReject Instr :=
  match fieldKk w with
  | 0x07#8 => .ok (.ldVxDt (fieldX w))
  | 0x0A#8 => .ok (.ldVxK (fieldX w))
  | 0x15#8 => .ok (.ldDtVx (fieldX w))
  | 0x18#8 => .ok (.ldStVx (fieldX w))
  | 0x1E#8 => .ok (.addI (fieldX w))
  | 0x29#8 => .ok (.ldF (fieldX w))
  | 0x33#8 => .ok (.ldB (fieldX w))
  | 0x55#8 => .ok (.ldMemVx (fieldX w))
  | 0x65#8 => .ok (.ldVxMem (fieldX w))
  | _ => .error (.undefinedEncoding w)

/-- `Decode(op)` of 30_encoding.md R64: the top-level table, keyed by the category; the last entry is 0xF. -/
def decode (p : Params) (w : Word) : Except DecodeReject Instr :=
  match fieldCat w with
  | 0x0#4 => .ok (decodeCat0 w)
  | 0x1#4 => .ok (.jp (fieldNnn w))
  | 0x2#4 => .ok (.call (fieldNnn w))
  | 0x3#4 => .ok (.seImm (fieldX w) (fieldKk w))
  | 0x4#4 => .ok (.sneImm (fieldX w) (fieldKk w))
  | 0x5#4 => .ok (.seReg (fieldX w) (fieldY w) (fieldN w))
  | 0x6#4 => .ok (.ldImm (fieldX w) (fieldKk w))
  | 0x7#4 => .ok (.addImm (fieldX w) (fieldKk w))
  | 0x8#4 => decodeCat8 p w
  | 0x9#4 => .ok (.sneReg (fieldX w) (fieldY w) (fieldN w))
  | 0xA#4 => .ok (.ldI (fieldNnn w))
  | 0xB#4 => .ok (.jpV0 (fieldNnn w))
  | 0xC#4 => .ok (.rnd (fieldX w) (fieldKk w))
  | 0xD#4 => .ok (.drw (fieldX w) (fieldY w) (fieldN w))
  | 0xE#4 => decodeCatE w
  | _ => decodeCatF w

/-- The instruction word of two bytes, the high byte at the lower address (20_memory.md R43). -/
def wordOfBytes (hi lo : Byte) : Word := hi ++ lo

/-- The byte at the lower address (20_memory.md R43). -/
def wordHi (w : Word) : Byte := w.extractLsb' 8 8

/-- The byte at the higher address (20_memory.md R43). -/
def wordLo (w : Word) : Byte := w.extractLsb' 0 8

/-- Decode the first instruction of a byte sequence and return the bytes after it; every instruction is two
bytes long (30_encoding.md R68). -/
def decodeBytes (p : Params) : List Byte → Except DecodeReject (Instr × List Byte)
  | hi :: lo :: rest =>
    match decode p (wordOfBytes hi lo) with
    | .ok i => .ok (i, rest)
    | .error e => .error e
  | _ => .error .truncated

/-- The word whose bits are `w`, numbered as spec/opcode_table.json numbers them. -/
def tableWord (nbits w : Nat) : Word := BitVec.ofNat 16 (w % 2 ^ nbits)

/-- The instruction the decoder reads, under the default parameters, from a word laid out as the core stores it. -/
def decodeTableWord (nbits w : Nat) : Option Instr :=
  match decodeBytes {} [wordHi (tableWord nbits w), wordLo (tableWord nbits w)] with
  | .ok (i, _) => some i
  | .error _ => none

/-! ## The encoder -/

/-- The four bits of a register field. -/
def regBits (x : Reg) : BitVec 4 := BitVec.ofFin x

/-- A word of the form cat, nnn. -/
def wordNnn (cat : BitVec 4) (nnn : BitVec 12) : Word := cat ++ nnn

/-- A word of the form cat, x, kk. -/
def wordXkk (cat : BitVec 4) (x : Reg) (kk : Byte) : Word := cat ++ (regBits x ++ kk)

/-- A word of the form cat, x, y, n, where y is given as bits. -/
def wordXyn (cat : BitVec 4) (x : Reg) (y n : BitVec 4) : Word := cat ++ (regBits x ++ (y ++ n))

/-- A word of the form cat, pad, n. -/
def wordPad (cat : BitVec 4) (pad : Byte) (n : BitVec 4) : Word := cat ++ (pad ++ n)

/-- The word of an instruction (30_encoding.md R65). -/
def encode : Instr → Word
  | .sys nnn => wordNnn 0x0#4 nnn
  | .cls pad => wordPad 0x0#4 pad 0x0#4
  | .ret pad => wordPad 0x0#4 pad 0xE#4
  | .jp nnn => wordNnn 0x1#4 nnn
  | .call nnn => wordNnn 0x2#4 nnn
  | .seImm x kk => wordXkk 0x3#4 x kk
  | .sneImm x kk => wordXkk 0x4#4 x kk
  | .seReg x y pad => wordXyn 0x5#4 x (regBits y) pad
  | .ldImm x kk => wordXkk 0x6#4 x kk
  | .addImm x kk => wordXkk 0x7#4 x kk
  | .ldReg x y => wordXyn 0x8#4 x (regBits y) 0x0#4
  | .orReg x y => wordXyn 0x8#4 x (regBits y) 0x1#4
  | .andReg x y => wordXyn 0x8#4 x (regBits y) 0x2#4
  | .xorReg x y => wordXyn 0x8#4 x (regBits y) 0x3#4
  | .addReg x y => wordXyn 0x8#4 x (regBits y) 0x4#4
  | .sub x y => wordXyn 0x8#4 x (regBits y) 0x5#4
  | .shr x pad => wordXyn 0x8#4 x pad 0x6#4
  | .subn x y => wordXyn 0x8#4 x (regBits y) 0x7#4
  | .shl x pad => wordXyn 0x8#4 x pad 0xE#4
  | .sneReg x y pad => wordXyn 0x9#4 x (regBits y) pad
  | .ldI nnn => wordNnn 0xA#4 nnn
  | .jpV0 nnn => wordNnn 0xB#4 nnn
  | .rnd x kk => wordXkk 0xC#4 x kk
  | .drw x y n => wordXyn 0xD#4 x (regBits y) n
  | .skp x pad => wordXyn 0xE#4 x pad 0xE#4
  | .sknp x pad => wordXyn 0xE#4 x pad 0x1#4
  | .ldVxDt x => wordXkk 0xF#4 x 0x07#8
  | .ldVxK x => wordXkk 0xF#4 x 0x0A#8
  | .ldDtVx x => wordXkk 0xF#4 x 0x15#8
  | .ldStVx x => wordXkk 0xF#4 x 0x18#8
  | .addI x => wordXkk 0xF#4 x 0x1E#8
  | .ldF x => wordXkk 0xF#4 x 0x29#8
  | .ldB x => wordXkk 0xF#4 x 0x33#8
  | .ldMemVx x => wordXkk 0xF#4 x 0x55#8
  | .ldVxMem x => wordXkk 0xF#4 x 0x65#8

/-- The two bytes of an instruction as memory holds them (20_memory.md R43). -/
def encodeBytes (i : Instr) : List Byte := [wordHi (encode i), wordLo (encode i)]

end Sys2Proof
end

