-- ==== Sys2Proof/Machine/State.lean ====
section
/-! DEFINITION. The state of CHIP-8 CORE as plain data (10_state.md), the records and outcomes of a fault
(60_exceptions.md), and the state right after construction (10_state.md R34; 70_reset_and_hazards.md R162). -/

namespace Sys2Proof.Machine

/-- Memory as (address, byte) cells in one canonical form: `Memory.wf` in Machine/Ops.lean. Log entry 6. -/
abbrev Memory := List Host.Cell

/-- `FB[r][c]`: 32 rows of 64 pixels, true = lit (10_state.md R28). -/
abbrev Framebuffer := Vector (Vector Bool fbCols) fbRows

/-- `KEY[0..15]`, true = pressed (10_state.md R29). -/
abbrev KeyLines := Vector Bool 16

/-- The kinds of fault (60_exceptions.md R142); their codes are `FaultKind.code` in Machine/Ops.lean. -/
inductive FaultKind where
  | stackOverflow
  | stackUnderflow
  | memoryBounds
  | keyIndex
  | reservedWrite
deriving DecidableEq, Repr

/-- The kinds of memory access (60_exceptions.md R141). -/
inductive Access where
  | fetch
  | read
  | write
deriving DecidableEq, Repr

/-- The fault record (60_exceptions.md R141). The record's `code` is a function of `kind`: log entry 12. -/
structure FaultRecord where
  kind : FaultKind
  /-- The address of the instruction that faulted: PC before the step. -/
  pc : Word
  /-- The word fetched, or none for a fetch fault. -/
  opcode : Option Word
  /-- The offending address, or the offending Vx of KeyIndex. -/
  addr : Option Nat
  access : Option Access
deriving DecidableEq, Repr

/-- What one step takes from outside: the key lines and one random byte (30_encoding.md R70). -/
structure StepInput where
  keys : KeyLines
  rnd : Byte
deriving DecidableEq, Repr

/-- The state tuple of 10_state.md, then the inputs of the coming step and the parameters, which the spec keeps
beside the state and the model carries in it (log entries 2, 3, 4, 5). -/
structure State where
  /-- V0..VF (10_state.md R20). -/
  v : Vector Byte 16
  /-- The index register I (10_state.md R22). -/
  i : Word
  /-- The program counter (10_state.md R23). -/
  pc : Word
  /-- The return-address stack (10_state.md R24). -/
  stack : Vector Word stackDepth
  /-- SP, an integer 0..16: the next free slot (10_state.md R24, R32). -/
  sp : Fin (stackDepth + 1)
  /-- The delay timer (10_state.md R26). -/
  dt : Byte
  /-- The sound timer (10_state.md R26). -/
  st : Byte
  /-- The 4096-byte memory (20_memory.md R40). -/
  mem : Memory
  /-- The framebuffer (10_state.md R28). -/
  fb : Framebuffer
  /-- The fault latch (10_state.md R30). -/
  fault : Option FaultRecord
  /-- KEY of the coming step (10_state.md R29). -/
  keys : KeyLines
  /-- RND of the coming step (10_state.md R25). -/
  rnd : Byte
  /-- The model's own: how many free random bytes have been drawn. -/
  rndDraws : Nat
  /-- The model's own: the inputs the host has in store for the steps after the coming one, oldest first. -/
  pending : List StepInput
  /-- The parameters of 00_scope.md R4. -/
  params : Params
deriving DecidableEq, Repr

/-- Why a step gives no next state. -/
inductive Fault where
  /-- Raised by `step` alone, when the latch is set before the step: the typed result `Faulted` with the latched
  record (30_encoding.md R70 phase 0; 60_exceptions.md R144). Safe: the spec's core does not run either. -/
  | coreFaulted (record : FaultRecord)
deriving DecidableEq, Repr

/-- Why an instruction has no meaning in the model. -/
inductive Refusal where
  /-- Raised by the arm of an instruction without a meaning; no arm raises it. Safe. -/
  | notModelled (mnemonic : String)
deriving DecidableEq, Repr

/-- What a step or a meaning answers. -/
abbrev Result := Host.Outcome State Fault Refusal

/-- The core right after construction with an empty ROM, the default FONT and the default parameters
(10_state.md R34; 70_reset_and_hazards.md R162). `rnd` is free: draw 0 (log entry 4). -/
def State.reset : State where
  v := Vector.replicate 16 0
  i := 0
  pc := BitVec.ofNat 16 programBase
  stack := Vector.replicate stackDepth 0
  sp := 0
  dt := 0
  st := 0
  mem := []
  fb := Vector.replicate fbRows (Vector.replicate fbCols false)
  fault := none
  keys := Vector.replicate 16 false
  rnd := Config.freeRandomByte 0
  rndDraws := 1
  pending := []
  params := {}

end Sys2Proof.Machine
end

