-- ==== Sys2Proof/Machine/Ops.lean ====
section
/-! DEFINITION. The shared operations: registers, memory (20_memory.md), the return-address stack, taking a
fault (60_exceptions.md R140), and the phases of a step (30_encoding.md R70). -/

namespace Sys2Proof.Machine

/-! ## Registers -/

/-- `V[x]` (00_scope.md R6). -/
def State.reg (s : State) (x : Reg) : Byte := s.v.get x

/-- `V[x] <- b` (00_scope.md R6). No register is hard-wired (10_state.md R20). -/
def State.setReg (s : State) (x : Reg) (b : Byte) : State := { s with v := s.v.set x.val b }

/-- `I <- w`. -/
def State.setI (s : State) (w : Word) : State := { s with i := w }

/-- `PC <- w`. -/
def State.setPc (s : State) (w : Word) : State := { s with pc := w }

/-- `DT <- b`. -/
def State.setDt (s : State) (b : Byte) : State := { s with dt := b }

/-- `ST <- b`. -/
def State.setSt (s : State) (b : Byte) : State := { s with st := b }

/-- `PC <- (PC + 2) mod 2^16`: the advance of every step (30_encoding.md R70) and a taken skip
(41_control_flow.md R93). -/
def State.advancePc (s : State) : State := s.setPc (s.pc + 2)

/-- `PC <- (PC − 2) mod 2^16`: PC back on the instruction that is running (44_keypad_timers.md R130). -/
def State.rewindPc (s : State) : State := s.setPc (s.pc - 2)

/-! ## Memory -/

/-- `FONT_BASE` (00_scope.md R4; one unaudited occurrence, 91_not_in_source.md N14). Log entry 7. -/
def fontBase : Nat := 0x050

/-- `FONT_LEN` (00_scope.md R4). -/
abbrev fontLen : Nat := 80

/-- The default FONT (10_state.md R27), PRESUMED by the spec from general knowledge. Log entry 7. -/
def defaultFont : Vector Byte fontLen := #v[
  0xF0, 0x90, 0x90, 0x90, 0xF0, 0x20, 0x60, 0x20, 0x20, 0x70,
  0xF0, 0x10, 0xF0, 0x80, 0xF0, 0xF0, 0x10, 0xF0, 0x10, 0xF0,
  0x90, 0x90, 0xF0, 0x10, 0x10, 0xF0, 0x80, 0xF0, 0x10, 0xF0,
  0xF0, 0x80, 0xF0, 0x90, 0xF0, 0xF0, 0x10, 0x20, 0x40, 0x40,
  0xF0, 0x90, 0xF0, 0x90, 0xF0, 0xF0, 0x90, 0xF0, 0x10, 0xF0,
  0xF0, 0x90, 0xF0, 0x90, 0x90, 0xE0, 0x90, 0xE0, 0x90, 0xE0,
  0xF0, 0x80, 0x80, 0x80, 0xF0, 0xE0, 0x90, 0x90, 0x90, 0xE0,
  0xF0, 0x80, 0xF0, 0x80, 0xF0, 0xF0, 0x80, 0xF0, 0x80, 0x80]

/-- What an address that memory does not list reads as: the construction contents, the default FONT in its
window and 0 elsewhere (10_state.md R34). Log entries 6 and 7. -/
def Memory.unlisted (a : Nat) : Byte :=
  if h : fontBase ≤ a ∧ a - fontBase < fontLen then defaultFont[a - fontBase]'h.2 else 0

/-- The byte at an address. -/
def Memory.read : Memory → Nat → Byte
  | [], a => Memory.unlisted a
  | c :: m, a => if c.1 = a then c.2 else Memory.read m a

/-- Take every cell of an address out of the list. -/
def Memory.removeCell (m : Memory) (a : Nat) : Memory := m.filter fun c => c.1 != a

/-- Put a cell before the first one of a higher address. -/
def Memory.insertCell : Memory → Nat → Byte → Memory
  | [], a, b => [(a, b)]
  | c :: m, a, b => if a < c.1 then (a, b) :: c :: m else c :: Memory.insertCell m a b

/-- `mem[a] <- b`; writing what the address reads as unlisted leaves it unlisted. -/
def Memory.write (m : Memory) (a : Nat) (b : Byte) : Memory :=
  if b = Memory.unlisted a then m.removeCell a else (m.removeCell a).insertCell a b

/-- The canonical form: addresses strictly rising, each below 4096, and no cell that says what its address
reads as unlisted. -/
abbrev Memory.wf (m : Memory) : Prop :=
  m.Pairwise (fun c d => c.1 < d.1) ∧ ∀ c ∈ m, c.1 < memSize ∧ c.2 ≠ Memory.unlisted c.1

/-- `[mem[a], …, mem[a+n−1]]`. -/
def Memory.readBytes (m : Memory) (a n : Nat) : List Byte := (List.range n).map fun k => m.read (a + k)

/-- `for k in 0..n−1: mem[a + k] <- bytes[k]`, in ascending address order (20_memory.md R48, R53). -/
def Memory.writeBytes (m : Memory) (a : Nat) : List Byte → Memory
  | [] => m
  | b :: bs => Memory.writeBytes (m.write a b) (a + 1) bs

/-- Why MemRead or MemWrite raises. -/
inductive MemFault where
  /-- MemoryBounds (20_memory.md R47, R48, R49). -/
  | bounds (addr : Nat) (access : Access)
  /-- ReservedWrite (20_memory.md R48, R50). -/
  | reserved (addr : Nat)
deriving DecidableEq, Repr

/-- `MemRead(a, n, access)` (20_memory.md R47); a is an exact integer (R46). -/
def memRead (m : Memory) (a n : Nat) (access : Access) : Except MemFault (List Byte) :=
  if n = 0 then .ok []
  else if memSize ≤ a + n - 1 then .error (.bounds (max a memSize) access)
  else .ok (m.readBytes a n)

/-- `MemWrite(a, n, bytes)` with n = the number of bytes, at least 1 (20_memory.md R48); a is an exact
integer (R46). -/
def memWrite (p : Params) (m : Memory) (a : Nat) (bytes : List Byte) : Except MemFault Memory :=
  if memSize ≤ a + bytes.length - 1 then .error (.bounds (max a memSize) .write)
  else if p.lowmemWriteFault ∧ a < programBase then .error (.reserved a)
  else .ok (m.writeBytes a bytes)

/-- The byte at an address of the state's memory. -/
def State.byte (s : State) (a : Nat) : Byte := s.mem.read a

/-! ## The return-address stack (10_state.md R24) -/

/-- `stack[SP] <- w; SP <- SP + 1`, or none when SP = 16 (41_control_flow.md R88). -/
def State.push (s : State) (w : Word) : Option State :=
  if h : s.sp.val < stackDepth then
    some { s with stack := s.stack.set s.sp.val w, sp := ⟨s.sp.val + 1, Nat.succ_lt_succ h⟩ }
  else none

/-- `SP <- SP − 1`, with `stack[SP]`, or none when SP = 0; the slot keeps its value (41_control_flow.md R86). -/
def State.pop (s : State) : Option (Word × State) :=
  if h : 0 < s.sp.val then
    have hk : s.sp.val - 1 < stackDepth := by have := s.sp.isLt; omega
    some (s.stack[s.sp.val - 1], { s with sp := ⟨s.sp.val - 1, Nat.lt_succ_of_lt hk⟩ })
  else none

/-! ## Taking a fault (60_exceptions.md R140, R144). There is no return from one (R145). -/

/-- The numeric codes (60_exceptions.md R142). -/
def FaultKind.code : FaultKind → Nat
  | .stackOverflow => 1
  | .stackUnderflow => 2
  | .memoryBounds => 3
  | .keyIndex => 4
  | .reservedWrite => 5

/-- The `code` field of the record (60_exceptions.md R141). -/
def FaultRecord.code (r : FaultRecord) : Nat := r.kind.code

/-- Set the fault latch (10_state.md R30). -/
def State.latch (s : State) (r : FaultRecord) : State := { s with fault := some r }

/-- `raise F(info)` in phase 3, by the running instruction i: PC goes back to the instruction's address, the
latch takes the record, and nothing else changes. Handlers raise before they write, so this restores the state
before the fetch (60_exceptions.md R140). Log entries 1 and 19. -/
def raise (i : Instr) (kind : FaultKind) (addr : Option Nat) (access : Option Access) (s : State) : Result :=
  .next (s.rewindPc.latch { kind, pc := s.pc - 2, opcode := some (encode i), addr, access })

/-- `raise` for a data access that MemRead or MemWrite turns away. -/
def raiseMem (i : Instr) (e : MemFault) (s : State) : Result :=
  match e with
  | .bounds addr access => raise i .memoryBounds (some addr) (some access) s
  | .reserved addr => raise i .reservedWrite (some addr) (some .write) s

/-- `raise` in phase 1: the fetch at PC is out of bounds, so no word was fetched (30_encoding.md R70;
20_memory.md R47; decision D26). -/
def raiseFetch (s : State) : Result :=
  .next (s.latch { kind := .memoryBounds, pc := s.pc, opcode := none, addr := some (max s.pc.toNat memSize),
                   access := some .fetch })

/-! ## The phases of a step (30_encoding.md R70) -/

/-- Phase 1: `MemRead(PC, 2, fetch)` as a big-endian word, or none when it is out of bounds. -/
def State.fetch (s : State) : Option Word :=
  match memRead s.mem s.pc.toNat 2 .fetch with
  | .ok [hi, lo] => some (wordOfBytes hi lo)
  | _ => none

/-- Phase 3 for a word that matches no row: a no-op (30_encoding.md R66). -/
def execUndefined (s : State) : Result := .next s

/-- `if T ≠ 0: T <- T − 1` (10_state.md R26). -/
def tickTimer (t : Byte) : Byte := if t = 0 then 0 else t - 1

/-- Phase 4: both timers tick. -/
def State.tick (s : State) : State := { s with dt := tickTimer s.dt, st := tickTimer s.st }

/-- Between two steps: the inputs of the next one. The host's stored inputs come first; without any, the key
lines hold and the random byte is a fresh free draw (10_state.md R25, R29). Log entries 3, 4, 5. -/
def State.nextInput (s : State) : State :=
  match s.pending with
  | [] => { s with rnd := Config.freeRandomByte s.rndDraws, rndDraws := s.rndDraws + 1 }
  | inp :: rest => { s with keys := inp.keys, rnd := inp.rnd, pending := rest }

/-- What follows phase 3: a completed step ticks and takes its next inputs; a faulting step does neither
(30_encoding.md R70). -/
def finishStep : Result → Result
  | .next t => if t.fault = none then .next t.tick.nextInput else .next t
  | .fault r => .fault r
  | .refused r => .refused r

end Sys2Proof.Machine
end

