-- ==== Sys2Proof/Machine/Flags.lean ====
section
/-! DEFINITION. The values an instruction writes to VF as a flag (10_state.md R21): each is 0 or 1. -/

namespace Sys2Proof.Machine

/-- A flag as a byte: 1 or 0. -/
def flagByte (b : Bool) : Byte := if b then 1 else 0

/-- Carry: `if sum > 255 then 1 else 0`, of the exact sum (42_alu.md R106). -/
def carryFlag (sum : Nat) : Byte := flagByte (decide (255 < sum))

/-- `if a > b then 1 else 0`, strictly, unsigned (42_alu.md R107, R108; 90_conflicts.md C6). -/
def greaterFlag (a b : Byte) : Byte := flagByte (decide (b.toNat < a.toNat))

/-- `a AND 1`, the bit that SHR shifts out (42_alu.md R109). -/
def lowBitFlag (a : Byte) : Byte := a &&& 1

/-- `(a >> 7) AND 1`, the bit that SHL shifts out (42_alu.md R110). -/
def highBitFlag (a : Byte) : Byte := (a >>> 7) &&& 1

/-- `VF <- flag`. -/
def State.setFlag (s : State) (flag : Byte) : State := s.setReg Reg.VF flag

end Sys2Proof.Machine
end

