-- ==== Sys2Proof/Machine/Operands.lean ====
section
/-! DEFINITION. The forms an operand takes: 12-bit addresses (30_encoding.md R62), glyph addresses, the
register block V0..Vx, decimal digits (43_index_memory.md) and key lines (44_keypad_timers.md). -/

namespace Sys2Proof.Machine

/-- `zext_16(nnn)` (30_encoding.md R62). -/
def zext16 (nnn : BitVec 12) : Word := nnn.setWidth 16

/-- A byte as a 16-bit word. -/
def byteToWord (b : Byte) : Word := b.setWidth 16

/-- `V0 + nnn`, at most 0x10FE (41_control_flow.md R95). -/
def offsetTarget (s : State) (nnn : BitVec 12) : Word := byteToWord (s.reg Reg.V0) + zext16 nnn

/-- The second operand of `SNE Vx, Vy` (41_control_flow.md R92). -/
def sneOperand (s : State) (y : Reg) : Byte := if s.params.sneReadsV0 then s.reg Reg.V0 else s.reg y

/-- The address an instruction's data access starts at: I, as an exact integer (20_memory.md R46;
43_index_memory.md R115). -/
def State.dataAddress (s : State) : Nat := s.i.toNat

/-- `0x050 + 5 × Vx`, of the whole byte (43_index_memory.md R120; decision D10). -/
def glyphAddress (b : Byte) : Word := BitVec.ofNat 16 (fontBase + 5 * b.toNat)

/-- The hundreds, tens and ones digits of a byte (43_index_memory.md R121). -/
def bcdDigits (b : Byte) : List Byte :=
  [BitVec.ofNat 8 (b.toNat / 100), BitVec.ofNat 8 (b.toNat / 10 % 10), BitVec.ofNat 8 (b.toNat % 10)]

/-- `[V[0], V[1], …, V[x]]` (43_index_memory.md R122). -/
def State.regBlock (s : State) (x : Reg) : List Byte := s.v.toList.take (x.val + 1)

/-- `V[k] <- b[0], V[k+1] <- b[1], …` (43_index_memory.md R123). -/
def loadRegsFrom (v : Vector Byte 16) (k : Nat) : List Byte → Vector Byte 16
  | [] => v
  | b :: bs => loadRegsFrom (v.setIfInBounds k b) (k + 1) bs

/-- `for i in 0..x: V[i] <- b[i]`. -/
def State.setRegBlock (s : State) (bs : List Byte) : State := { s with v := loadRegsFrom s.v 0 bs }

/-- `KEY[k]` (10_state.md R29). -/
def State.keyPressed (s : State) (k : KeyIx) : Bool := s.keys.get k

/-- The key line a register's value names, or none above 15 (44_keypad_timers.md R125). -/
def keyIndex (b : Byte) : Option KeyIx := if h : b.toNat < 16 then some ⟨b.toNat, h⟩ else none

/-- The lowest-numbered pressed line (44_keypad_timers.md R130). -/
def State.firstPressed (s : State) : Option KeyIx := (List.finRange 16).find? fun k => s.keyPressed k

/-- `if cond: PC <- PC + 2` (41_control_flow.md R93). -/
def State.skipIf (s : State) (cond : Bool) : State := if cond then s.advancePc else s

end Sys2Proof.Machine
end

