-- ==== Sys2Proof/Machine/Alu.lean ====
section
/-! DEFINITION. The register and ALU instructions (42_alu.md). Statements run in the pseudocode's order, each on
the state the ones before it left (00_scope.md R6; decision D4, log entry 10). -/

namespace Sys2Proof.Machine

/-- LD Vx, kk (42_alu.md R100). -/
def execLdImm (x : Reg) (kk : Byte) (s : State) : Result := .next (s.setReg x kk)

/-- ADD Vx, kk: no flag (42_alu.md R102). -/
def execAddImm (x : Reg) (kk : Byte) (s : State) : Result := .next (s.setReg x (s.reg x + kk))

/-- LD Vx, Vy (42_alu.md R101). -/
def execLdReg (x y : Reg) (s : State) : Result := .next (s.setReg x (s.reg y))

/-- OR Vx, Vy (42_alu.md R103). -/
def execOrReg (x y : Reg) (s : State) : Result := .next (s.setReg x (s.reg x ||| s.reg y))

/-- AND Vx, Vy (42_alu.md R104); `P_AND_IS_OR` acts in the decoder (30_encoding.md R64). -/
def execAndReg (x y : Reg) (s : State) : Result := .next (s.setReg x (s.reg x &&& s.reg y))

/-- XOR Vx, Vy (42_alu.md R105). -/
def execXorReg (x y : Reg) (s : State) : Result := .next (s.setReg x (s.reg x ^^^ s.reg y))

/-- ADD Vx, Vy: the exact sum first, then VF := carry, then Vx (42_alu.md R106). -/
def execAddReg (x y : Reg) (s : State) : Result :=
  let sum := (s.reg x).toNat + (s.reg y).toNat
  .next ((s.setFlag (carryFlag sum)).setReg x (BitVec.ofNat 8 sum))

/-- SUB Vx, Vy: VF := Vx > Vy, then Vx := Vx − Vy on the registers after the VF write (42_alu.md R107). -/
def execSub (x y : Reg) (s : State) : Result :=
  let t := s.setFlag (greaterFlag (s.reg x) (s.reg y))
  .next (t.setReg x (t.reg x - t.reg y))

/-- SHR Vx: VF := bit 0, then Vx := Vx >> 1 on the register after the VF write (42_alu.md R109). -/
def execShr (x : Reg) (_pad : BitVec 4) (s : State) : Result :=
  let t := s.setFlag (lowBitFlag (s.reg x))
  .next (t.setReg x (t.reg x >>> 1))

/-- SUBN Vx, Vy: VF := Vy > Vx, then Vx := Vy − Vx on the registers after the VF write (42_alu.md R108). -/
def execSubn (x y : Reg) (s : State) : Result :=
  let t := s.setFlag (greaterFlag (s.reg y) (s.reg x))
  .next (t.setReg x (t.reg y - t.reg x))

/-- SHL Vx: VF := bit 7, then Vx := Vx << 1 on the register after the VF write (42_alu.md R110). -/
def execShl (x : Reg) (_pad : BitVec 4) (s : State) : Result :=
  let t := s.setFlag (highBitFlag (s.reg x))
  .next (t.setReg x (t.reg x <<< 1))

/-- RND Vx, kk: the step's random byte AND kk (42_alu.md R111; decision D19). -/
def execRnd (x : Reg) (kk : Byte) (s : State) : Result := .next (s.setReg x (s.rnd &&& kk))

end Sys2Proof.Machine
end

