-- ==== Sys2Proof/Machine/ControlFlow.lean ====
section
/-! DEFINITION. The control-flow instructions (41_control_flow.md). Each meaning runs in phase 3, with PC
already advanced (30_encoding.md R71). -/

namespace Sys2Proof.Machine

/-- SYS nnn: no operation (41_control_flow.md R85). -/
def execSys (_nnn : BitVec 12) (s : State) : Result := .next s

/-- RET (41_control_flow.md R86). -/
def execRet (pad : Byte) (s : State) : Result :=
  match s.pop with
  | none => raise (.ret pad) .stackUnderflow none none s
  | some (target, t) => .next (t.setPc target)

/-- JP nnn (41_control_flow.md R87). -/
def execJp (nnn : BitVec 12) (s : State) : Result := .next (s.setPc (zext16 nnn))

/-- CALL nnn (41_control_flow.md R88). -/
def execCall (nnn : BitVec 12) (s : State) : Result :=
  match s.push s.pc with
  | none => raise (.call nnn) .stackOverflow none none s
  | some t => .next (t.setPc (zext16 nnn))

/-- SE Vx, kk (41_control_flow.md R89). -/
def execSeImm (x : Reg) (kk : Byte) (s : State) : Result := .next (s.skipIf (s.reg x == kk))

/-- SNE Vx, kk (41_control_flow.md R90). -/
def execSneImm (x : Reg) (kk : Byte) (s : State) : Result := .next (s.skipIf (s.reg x != kk))

/-- SE Vx, Vy (41_control_flow.md R91). -/
def execSeReg (x y : Reg) (_pad : BitVec 4) (s : State) : Result := .next (s.skipIf (s.reg x == s.reg y))

/-- SNE Vx, Vy, with V0 for Vy under `P_SNE_READS_V0` (41_control_flow.md R92). -/
def execSneReg (x y : Reg) (_pad : BitVec 4) (s : State) : Result := .next (s.skipIf (s.reg x != sneOperand s y))

/-- JP V0, nnn (41_control_flow.md R95). -/
def execJpV0 (nnn : BitVec 12) (s : State) : Result := .next (s.setPc (offsetTarget s nnn))

end Sys2Proof.Machine
end

