-- ==== Sys2Proof/Machine/Display.lean ====
section
/-! DEFINITION. The display instructions CLS and DRW (40_display.md). Each meaning runs in phase 3, with PC
already advanced (30_encoding.md R71). -/

namespace Sys2Proof.Machine

/-- `FB[r][c]` (00_scope.md R6). -/
def Framebuffer.pixel (fb : Framebuffer) (r : Fin fbRows) (c : Fin fbCols) : Bool := (fb.get r).get c

/-- `FB[r][c] <- FB[r][c] XOR 1`. -/
def Framebuffer.toggle (fb : Framebuffer) (r : Fin fbRows) (c : Fin fbCols) : Framebuffer :=
  fb.set r.val ((fb.get r).set c.val (!fb.pixel r c))

/-- Every cell unlit. -/
def Framebuffer.clear : Framebuffer := Vector.replicate fbRows (Vector.replicate fbCols false)

/-- The sprite bit of column offset c: bit 7 is the leftmost (40_display.md R82; decision D15). Log entry 9. -/
def spriteBit (b : Byte) (c : Nat) : Bool := b.getLsbD (7 - c)

/-- The pixel at offset (r, c) from the starting corner, wrapped (40_display.md R81, R82). -/
def spriteCell (row0 col0 r c : Nat) : Fin fbRows × Fin fbCols :=
  (⟨(row0 + r) % fbRows, Nat.mod_lt _ (by decide)⟩, ⟨(col0 + c) % fbCols, Nat.mod_lt _ (by decide)⟩)

/-- The pixels of one sprite row's set bits, from the leftmost. -/
def spriteRowCells (row0 col0 r : Nat) (b : Byte) : List (Fin fbRows × Fin fbCols) :=
  ((List.range 8).filter (spriteBit b)).map (spriteCell row0 col0 r)

/-- The pixels of a sprite's set bits, row by row from row offset r (40_display.md R81). -/
def spriteCellsFrom (row0 col0 r : Nat) : List Byte → List (Fin fbRows × Fin fbCols)
  | [] => []
  | b :: bs => spriteRowCells row0 col0 r b ++ spriteCellsFrom row0 col0 (r + 1) bs

/-- One pass of DRW's inner loop: note whether the pixel was lit, then toggle it (40_display.md R81). -/
def drawCell (acc : Framebuffer × Bool) (p : Fin fbRows × Fin fbCols) : Framebuffer × Bool :=
  (acc.1.toggle p.1 p.2, acc.2 || acc.1.pixel p.1 p.2)

/-- The framebuffer after a sprite is drawn, and whether a lit pixel was turned off (40_display.md R81). -/
def drawSprite (fb : Framebuffer) (row0 col0 : Nat) (sprite : List Byte) : Framebuffer × Bool :=
  (spriteCellsFrom row0 col0 0 sprite).foldl drawCell (fb, false)

/-- "Starting row = Vy mod 32" (40_display.md R81). -/
def startRow (s : State) (y : Reg) : Nat := (s.reg y).toNat % fbRows

/-- "Starting screen column = Vx mod 64" (40_display.md R81). -/
def startCol (s : State) (x : Reg) : Nat := (s.reg x).toNat % fbCols

/-- CLS (40_display.md R80). -/
def execCls (_pad : Byte) (s : State) : Result := .next { s with fb := Framebuffer.clear }

/-- DRW Vx, Vy, n (40_display.md R81). -/
def execDrw (x y : Reg) (n : BitVec 4) (s : State) : Result :=
  match memRead s.mem s.dataAddress n.toNat .read with
  | .error e => raiseMem (.drw x y n) e s
  | .ok sprite =>
    let drawn := drawSprite s.fb (startRow s y) (startCol s x) sprite
    .next ({ s with fb := drawn.1 }.setFlag (flagByte drawn.2))

end Sys2Proof.Machine
end

