-- ==== Sys2Proof/Machine/IndexMemory.lean ====
section
/-! DEFINITION. The index-register and memory instructions (43_index_memory.md). A block transfer checks its
whole range before it changes anything (R116), and I is unchanged by it (decision D11, log entry 13). -/

namespace Sys2Proof.Machine

/-- LD I, nnn (43_index_memory.md R118). -/
def execLdI (nnn : BitVec 12) (s : State) : Result := .next (s.setI (zext16 nnn))

/-- ADD I, Vx, modulo 2^16 and without a flag (43_index_memory.md R119). -/
def execAddI (x : Reg) (s : State) : Result := .next (s.setI (s.i + byteToWord (s.reg x)))

/-- LD F, Vx (43_index_memory.md R120). -/
def execLdF (x : Reg) (s : State) : Result := .next (s.setI (glyphAddress (s.reg x)))

/-- Store bytes at I by MemWrite, for the instruction i (20_memory.md R48). -/
def storeBlock (i : Instr) (bytes : List Byte) (s : State) : Result :=
  match memWrite s.params s.mem s.dataAddress bytes with
  | .error e => raiseMem i e s
  | .ok m => .next { s with mem := m }

/-- LD B, Vx (43_index_memory.md R121). -/
def execLdB (x : Reg) (s : State) : Result := storeBlock (.ldB x) (bcdDigits (s.reg x)) s

/-- LD [I], Vx (43_index_memory.md R122). -/
def execLdMemVx (x : Reg) (s : State) : Result := storeBlock (.ldMemVx x) (s.regBlock x) s

/-- LD Vx, [I] (43_index_memory.md R123). -/
def execLdVxMem (x : Reg) (s : State) : Result :=
  match memRead s.mem s.dataAddress (x.val + 1) .read with
  | .error e => raiseMem (.ldVxMem x) e s
  | .ok bytes => .next (s.setRegBlock bytes)

end Sys2Proof.Machine
end

