-- ==== Sys2Proof/Machine/KeypadTimers.lean ====
section
/-! DEFINITION. The keypad and timer instructions (44_keypad_timers.md). The tick of the same step follows a
timer write (R126): it is phase 4 of the step, not part of the meaning. -/

namespace Sys2Proof.Machine

/-- SKP Vx (44_keypad_timers.md R128); KeyIndex above 15 (R125). -/
def execSkp (x : Reg) (pad : BitVec 4) (s : State) : Result :=
  match keyIndex (s.reg x) with
  | none => raise (.skp x pad) .keyIndex (some (s.reg x).toNat) none s
  | some k => .next (s.skipIf (s.keyPressed k))

/-- SKNP Vx (44_keypad_timers.md R129); KeyIndex above 15 (R125). -/
def execSknp (x : Reg) (pad : BitVec 4) (s : State) : Result :=
  match keyIndex (s.reg x) with
  | none => raise (.sknp x pad) .keyIndex (some (s.reg x).toNat) none s
  | some k => .next (s.skipIf (!s.keyPressed k))

/-- LD Vx, DT (44_keypad_timers.md R131). -/
def execLdVxDt (x : Reg) (s : State) : Result := .next (s.setReg x s.dt)

/-- LD Vx, K: the lowest pressed key, or PC back on this instruction (44_keypad_timers.md R130). -/
def execLdVxK (x : Reg) (s : State) : Result :=
  match s.firstPressed with
  | some k => .next (s.setReg x (BitVec.ofNat 8 k.val))
  | none => .next s.rewindPc

/-- LD DT, Vx (44_keypad_timers.md R132). -/
def execLdDtVx (x : Reg) (s : State) : Result := .next (s.setDt (s.reg x))

/-- LD ST, Vx (44_keypad_timers.md R133). -/
def execLdStVx (x : Reg) (s : State) : Result := .next (s.setSt (s.reg x))

end Sys2Proof.Machine
end

