-- ==== Sys2Proof/Machine/Step.lean ====
section
/-! DEFINITION. One step of the core (30_encoding.md R70), and the placing of a word where the next step
fetches it. -/

namespace Sys2Proof.Machine

/-- Phase 3, with PC already advanced: the decoded instruction's meaning, or the no-op of a word that matches
no row (30_encoding.md R64, R66). -/
def execWord (w : Word) (s : State) : Result :=
  match decode s.params w with
  | .ok i => exec i s
  | .error _ => execUndefined s

/-- `Step(s, KEY, RND)` (30_encoding.md R70): a faulted core does not run; a fetch out of bounds raises;
otherwise advance, execute, and, unless the instruction faulted, tick. Log entry 1. -/
def step (s : State) : Host.Outcome State Fault Refusal :=
  match s.fault with
  | some r => .fault (.coreFaulted r)
  | none =>
    match s.fetch with
    | none => raiseFetch s
    | some w => finishStep (execWord w s.advancePc)

/-- Make a fetch possible: a faulted core's latch is cleared and a PC from which no fetch succeeds is set to
0x200; any other state is unchanged (log entry 20). -/
def State.fetchable (s : State) : State :=
  { s with fault := none, pc := if s.pc.toNat ≤ 0xFFE then s.pc else BitVec.ofNat 16 programBase }

/-- The state with a word stored where the next step fetches, big-endian (20_memory.md R43). Log entry 20. -/
def State.withFetchWord (s : State) (nbits w : Nat) : State :=
  { s.fetchable with
    mem := s.mem.writeBytes s.fetchable.pc.toNat [wordHi (tableWord nbits w), wordLo (tableWord nbits w)] }

end Sys2Proof.Machine
end

