-- ==== Sys2Proof/Machine/HostInterface.lean ====
section
/-! DEFINITION. The core's boundary (60_exceptions.md R150): construction, the typed result of a step, the
inputs the host writes between steps, and the outputs it reads. -/

namespace Sys2Proof.Machine

/-- Why no core is constructed. -/
inductive ConstructError where
  /-- `RomLoadError`: the ROM is longer than the program region (20_memory.md R51; 60_exceptions.md R155). -/
  | romLoad (length : Nat)
  /-- The "load delay timer" index defect was asked for, which the spec refuses (60_exceptions.md R156). -/
  | refusedConfiguration
deriving DecidableEq, Repr

/-- What a construction fixes: the parameters of 00_scope.md R4, and whether the reference's third defect is
asked for (60_exceptions.md R156). Log entry 21. -/
structure Configuration where
  params : Params := {}
  font : Vector Byte fontLen := defaultFont
  loadDelayIndexDefect : Bool := false
deriving DecidableEq, Repr

/-- The memory after construction: FONT at 0x050, then the ROM at 0x200, 0 elsewhere (10_state.md R34;
70_reset_and_hazards.md R160). -/
def constructMemory (font : Vector Byte fontLen) (rom : List Byte) : Memory :=
  (Memory.writeBytes [] fontBase font.toList).writeBytes programBase rom

/-- `construct(rom)` (20_memory.md R51; 70_reset_and_hazards.md R160, R161). -/
def construct (c : Configuration) (rom : List Byte) : Except ConstructError State :=
  if c.loadDelayIndexDefect then .error .refusedConfiguration
  else if romCapacity < rom.length then .error (.romLoad rom.length)
  else .ok { State.reset with params := c.params, mem := constructMemory c.font rom }

/-- The typed result of one step (60_exceptions.md R150). -/
inductive StepResult where
  | ok
  | fault (record : FaultRecord)
  | faulted (record : FaultRecord)
deriving DecidableEq, Repr

/-- What the caller of `step()` gets; none for a refusal, which no step answers. -/
def stepResult (s : State) : Option StepResult :=
  match step s with
  | .next t =>
    match t.fault with
    | none => some .ok
    | some r => some (.fault r)
  | .fault (.coreFaulted r) => some (.faulted r)
  | .refused _ => none

/-- Between two steps the host sets the inputs of the coming step and of those after it (10_state.md R29;
60_exceptions.md R157). -/
def State.withInputs (s : State) (coming : StepInput) (later : List StepInput) : State :=
  { s with keys := coming.keys, rnd := coming.rnd, pending := later }

/-- `sound_active = (ST ≠ 0)` (44_keypad_timers.md R127). Log entry 24. -/
def State.soundActive (s : State) : Bool := s.st != 0

/-- A pixel's output word: all ones when lit, all zeros when not (10_state.md R28). -/
def pixelWord (bits : Nat) (lit : Bool) : BitVec bits := if lit then BitVec.allOnes bits else 0

/-- The framebuffer as its readers see it, row-major: pixel (r, c) is element 64 r + c (10_state.md R28). -/
def State.pixelBuffer (s : State) : List (BitVec Config.pixelWordBits) :=
  s.fb.toList.flatMap fun row => row.toList.map (pixelWord Config.pixelWordBits)

end Sys2Proof.Machine
end

