-- ==== Sys2Proof/Safety.lean ====
section
/-! DEFINITION. The words claims are stated in: the frame of an instruction, the instruction a step runs, the
invariants of the machine, the runs of a core, and when an instruction faults. -/

namespace Sys2Proof.Machine

/-! ## Frames -/

/-- What an instruction may change. The default changes nothing. -/
structure Footprint where
  /-- The V registers it may write. -/
  regs : List Reg := []
  index : Bool := false
  pc : Bool := false
  /-- The stack entries and SP. -/
  stack : Bool := false
  delay : Bool := false
  sound : Bool := false
  /-- The bytes it may store to: `stored` bytes from address `storeBase`. -/
  storeBase : Nat := 0
  stored : Nat := 0
  display : Bool := false
  latch : Bool := false
  /-- The inputs of the step: KEY, RND and the model's store of later ones. No instruction writes them. -/
  inputs : Bool := false

/-- Everything outside the footprint is the same in t as in s: every register, I, PC, the stack and SP, the
timers, every byte of memory, every pixel, the fault latch, the step's inputs and the parameters. -/
structure ChangesOnly (f : Footprint) (s t : State) : Prop where
  regs : ∀ k, k ∉ f.regs → t.reg k = s.reg k
  index : f.index = false → t.i = s.i
  pc : f.pc = false → t.pc = s.pc
  stack : f.stack = false → t.stack = s.stack ∧ t.sp = s.sp
  delay : f.delay = false → t.dt = s.dt
  sound : f.sound = false → t.st = s.st
  bytes : ∀ a, (a < f.storeBase ∨ f.storeBase + f.stored ≤ a) → t.byte a = s.byte a
  display : f.display = false → ∀ r c, Framebuffer.pixel t.fb r c = Framebuffer.pixel s.fb r c
  latch : f.latch = false → t.fault = s.fault
  inputs : f.inputs = false →
    t.keys = s.keys ∧ t.rnd = s.rnd ∧ t.rndDraws = s.rndDraws ∧ t.pending = s.pending
  params : t.params = s.params

/-! ## Words, sprites and stored blocks -/

/-- Every word a row of the opcode map matches decodes to the row's instruction, with the fields of
30_encoding.md R60, whatever the parameters. -/
def RowDecodes (mask value : Word) (instr : Word → Instr) : Prop :=
  ∀ p w, w &&& mask = value → decode p w = .ok (instr w)

/-- A set bit of the sprite of `DRW Vx, Vy, n` falls on the pixel (r, c): row offset k and column offset j, bit 7
leftmost, each pixel wrapped (40_display.md R81, R82). -/
def SpriteCovers (s : State) (x y : Reg) (n : BitVec 4) (r : Fin fbRows) (c : Fin fbCols) : Prop :=
  ∃ k j, k < n.toNat ∧ j < 8 ∧ (s.byte (s.i.toNat + k)).getLsbD (7 - j) = true ∧
    r.val = ((s.reg y).toNat % 32 + k) % 32 ∧ c.val = ((s.reg x).toNat % 64 + j) % 64

/-- What an address reads as once a block of bytes is stored from a base address over the memory of a state. -/
def byteOver (s : State) (base bytes : Nat) (stored : Nat → Byte) (a : Nat) : Byte :=
  if base ≤ a ∧ a < base + bytes then stored (a - base) else s.byte a

/-! ## The instruction a step runs -/

/-- The instruction the next step runs: none for a faulted core, a fetch out of bounds, and a word that matches
no row (30_encoding.md R70). -/
def State.running (s : State) : Option Instr :=
  if s.fault = none then
    match s.fetch with
    | none => none
    | some w =>
      match decode s.params w with
      | .ok i => some i
      | .error _ => none
  else none

/-- The instruction defines a flag result, so it overwrites VF (10_state.md R21). -/
def writesFlag : Instr → Bool
  | .addReg _ _ | .sub _ _ | .subn _ _ | .shr _ _ | .shl _ _ | .drw _ _ _ => true
  | .sys _ | .cls _ | .ret _ | .jp _ | .call _ | .jpV0 _ | .ldI _ => false
  | .seImm _ _ | .sneImm _ _ | .ldImm _ _ | .addImm _ _ | .rnd _ _ => false
  | .seReg _ _ _ | .sneReg _ _ _ | .skp _ _ | .sknp _ _ => false
  | .ldReg _ _ | .orReg _ _ | .andReg _ _ | .xorReg _ _ => false
  | .ldVxDt _ | .ldVxK _ | .ldDtVx _ | .ldStVx _ => false
  | .addI _ | .ldF _ | .ldB _ | .ldMemVx _ | .ldVxMem _ => false

/-- The registers an instruction names as its own destination (10_state.md R31). -/
def destinations : Instr → List Reg
  | .ldImm x _ | .addImm x _ | .rnd x _ | .ldVxDt x | .ldVxK x => [x]
  | .ldReg x _ | .orReg x _ | .andReg x _ | .xorReg x _ => [x]
  | .addReg x _ | .sub x _ | .subn x _ | .shr x _ | .shl x _ => [x]
  | .ldVxMem x => (List.finRange 16).filter fun k => k.val ≤ x.val
  | .sys _ | .cls _ | .ret _ | .jp _ | .call _ | .jpV0 _ | .ldI _ => []
  | .seImm _ _ | .sneImm _ _ | .seReg _ _ _ | .sneReg _ _ _ | .drw _ _ _ | .skp _ _ | .sknp _ _ => []
  | .ldDtVx _ | .ldStVx _ | .addI _ | .ldF _ | .ldB _ | .ldMemVx _ => []

/-! ## When an instruction faults -/

/-- The fault an instruction raises in a state, or none: the table of 60_exceptions.md R142, one line for each
instruction it names, and nothing for any other. -/
def expectedFault (i : Instr) (s : State) : Option FaultKind :=
  match i with
  | .call _ => if s.sp.val = 16 then some .stackOverflow else none
  | .ret _ => if s.sp.val = 0 then some .stackUnderflow else none
  | .skp x _ | .sknp x _ => if 15 < (s.reg x).toNat then some .keyIndex else none
  | .drw _ _ n => if 1 ≤ n.toNat ∧ 4096 ≤ s.i.toNat + n.toNat - 1 then some .memoryBounds else none
  | .ldVxMem x => if 4096 ≤ s.i.toNat + x.val then some .memoryBounds else none
  | .ldB _ =>
    if 4096 ≤ s.i.toNat + 2 then some .memoryBounds
    else if s.params.lowmemWriteFault ∧ s.i.toNat < 0x200 then some .reservedWrite else none
  | .ldMemVx x =>
    if 4096 ≤ s.i.toNat + x.val then some .memoryBounds
    else if s.params.lowmemWriteFault ∧ s.i.toNat < 0x200 then some .reservedWrite else none
  | .sys _ | .cls _ | .jp _ | .jpV0 _ | .ldI _ => none
  | .seImm _ _ | .sneImm _ _ | .seReg _ _ _ | .sneReg _ _ _ => none
  | .ldImm _ _ | .addImm _ _ | .rnd _ _ => none
  | .ldReg _ _ | .orReg _ _ | .andReg _ _ | .xorReg _ _ | .addReg _ _ | .sub _ _ | .subn _ _ => none
  | .shr _ _ | .shl _ _ | .ldVxDt _ | .ldVxK _ | .ldDtVx _ | .ldStVx _ | .addI _ | .ldF _ => none

/-! ## Invariants -/

/-- Memory is in its canonical form. -/
def MemoryCanonical (s : State) : Prop := s.mem.wf

/-- PC is at most 0x10FE, the highest target of JP V0 (41_control_flow.md R95), and every stacked return address
is at most 0x1000 (41_control_flow.md R86). -/
def PcAndStackInRange (s : State) : Prop :=
  s.pc.toNat ≤ 0x10FE ∧ ∀ k : Fin 16, k.val < s.sp.val → (s.stack.get k).toNat ≤ 0x1000

/-- The fields of a record are those 60_exceptions.md R141 and R142 give its kind. -/
def FaultRecord.consistent (r : FaultRecord) : Prop :=
  match r.kind with
  | .stackOverflow | .stackUnderflow => r.opcode ≠ none ∧ r.addr = none ∧ r.access = none
  | .memoryBounds =>
    (∃ a, r.addr = some a ∧ 4096 ≤ a) ∧
    ((r.access = some .fetch ∧ r.opcode = none) ∨
     (r.access = some .read ∧ r.opcode ≠ none) ∨ (r.access = some .write ∧ r.opcode ≠ none))
  | .keyIndex => r.opcode ≠ none ∧ (∃ a, r.addr = some a ∧ 16 ≤ a ∧ a ≤ 255) ∧ r.access = none
  | .reservedWrite => r.opcode ≠ none ∧ (∃ a, r.addr = some a ∧ a < 0x200) ∧ r.access = some .write

/-- A latched record is consistent and names the instruction PC stands at. -/
def LatchConsistent (s : State) : Prop := ∀ r, s.fault = some r → r.pc = s.pc ∧ r.consistent

/-! ## Runs -/

/-- A run is safe so far when no fault is latched. -/
def Safe (s : State) : Prop := s.fault = none

/-- The states of the runs of a core constructed from a configuration and a ROM: steps, and between them the
host's changes of the inputs (70_reset_and_hazards.md R162; 60_exceptions.md R157). -/
inductive Reachable (c : Configuration) (rom : List Byte) : State → Prop where
  | launch {s : State} : construct c rom = .ok s → Reachable c rom s
  | step {s t : State} : Reachable c rom s → step s = .next t → Reachable c rom t
  | inputs {s : State} (coming : StepInput) (later : List StepInput) :
      Reachable c rom s → Reachable c rom (s.withInputs coming later)

end Sys2Proof.Machine
end

