-- ==== Sys2Proof/Certificates/Slice0/Obligations.lean ====
section
/-! DEFINITION. The statements for the provers. A statement about an instruction speaks of `exec` at the state its
meaning runs in, with PC already advanced by 2 (30_encoding.md R71); `ChangesOnly` says its frame. A fault is a next
state whose latch holds the record: how the model carries the spec's typed result is log entry 1. -/

open Sys2Proof Sys2Proof.Machine

/-! ## Display (40_display.md) -/

/-- CLS (R80): every word 0x0nn0 decodes to it; every pixel is unlit after it, and nothing else changes. -/
def Obligations.ClearScreenUnlitsEveryPixel : Prop :=
  RowDecodes 0xF00F 0x0000 (fun w => .cls (fieldPad w)) ∧
  ∀ pad s, ∃ t, exec (.cls pad) s = .next t ∧
    (∀ r c, Framebuffer.pixel t.fb r c = false) ∧ ChangesOnly { display := true } s t

/-- DRW Vx, Vy, n (R81, R82; bit order is the spec's decision D15, log entry 9, the reading of VF as a coordinate
D4): when the sprite lies in memory, exactly the covered pixels are inverted, VF is 1 if a covered pixel was lit and
0 if none was, and nothing else changes. A sprite that does not lie in memory is BlockAccessFaultsAreTaken's. -/
def Obligations.DrawSpriteInvertsCoveredPixels : Prop :=
  ∀ x y n s, (n = 0 ∨ s.i.toNat + n.toNat ≤ 4096) →
    ∃ t, exec (.drw x y n) s = .next t ∧
      (∀ r c, Framebuffer.pixel t.fb r c = true ↔
        ((Framebuffer.pixel s.fb r c = true ∧ ¬ SpriteCovers s x y n r c) ∨
         (Framebuffer.pixel s.fb r c = false ∧ SpriteCovers s x y n r c))) ∧
      ((∃ r c, SpriteCovers s x y n r c ∧ Framebuffer.pixel s.fb r c = true) → t.reg Reg.VF = 1) ∧
      ((¬ ∃ r c, SpriteCovers s x y n r c ∧ Framebuffer.pixel s.fb r c = true) → t.reg Reg.VF = 0) ∧
      ChangesOnly { regs := [Reg.VF], display := true } s t

/-- Law 1 of R83 (which pixels are covered rests on the bit order, the spec's decision D15, log entry 9): a second
draw of the same sprite at the same corner, with no framebuffer write in between, restores the framebuffer, and sets
VF = 1 exactly when some covered pixel was unlit before the first draw. -/
def Obligations.DrawTwiceRestoresFramebuffer : Prop :=
  ∀ x y x' y' n s t u w,
    exec (.drw x y n) s = .next t → t.fault = none → u.fb = t.fb →
    (u.reg x').toNat % 64 = (s.reg x).toNat % 64 → (u.reg y').toNat % 32 = (s.reg y).toNat % 32 →
    (∀ k, k < n.toNat → u.byte (u.i.toNat + k) = s.byte (s.i.toNat + k)) →
    exec (.drw x' y' n) u = .next w → w.fault = none →
    (∀ r c, Framebuffer.pixel w.fb r c = Framebuffer.pixel s.fb r c) ∧
    ((∃ r c, SpriteCovers s x y n r c ∧ Framebuffer.pixel s.fb r c = false) → w.reg Reg.VF = 1) ∧
    ((¬ ∃ r c, SpriteCovers s x y n r c ∧ Framebuffer.pixel s.fb r c = false) → w.reg Reg.VF = 0)

/-- Law 2 of R83 (90_conflicts.md C5; which pixels are covered rests on the bit order, the spec's decision D15, log
entry 9): after a draw, CLS and the same draw, exactly the covered pixels are lit, and VF = 0. -/
def Obligations.DrawClearDrawLeavesSprite : Prop :=
  ∀ x y x' y' n pad s t u v w,
    exec (.drw x y n) s = .next t → t.fault = none →
    exec (.cls pad) t = .next u → v.fb = u.fb →
    (v.reg x').toNat % 64 = (s.reg x).toNat % 64 → (v.reg y').toNat % 32 = (s.reg y).toNat % 32 →
    (∀ k, k < n.toNat → v.byte (v.i.toNat + k) = s.byte (s.i.toNat + k)) →
    exec (.drw x' y' n) v = .next w → w.fault = none →
    (∀ r c, Framebuffer.pixel w.fb r c = true ↔ SpriteCovers s x y n r c) ∧ w.reg Reg.VF = 0

/-- The output buffer (10_state.md R28; 60_exceptions.md R150; the word's width is the open PIXEL_WORD_BITS, log entry
22): 2048 words, pixel (r, c) being element 64 r + c, all ones when lit and all zeros when not. -/
def Obligations.PixelBufferIsRowMajor : Prop :=
  ∀ s : State, s.pixelBuffer.length = 2048 ∧
    ∀ (r : Fin fbRows) (c : Fin fbCols), s.pixelBuffer[64 * r.val + c.val]? =
      some (if Framebuffer.pixel s.fb r c = true then BitVec.allOnes Config.pixelWordBits else 0)

/-! ## Control flow (41_control_flow.md) -/

/-- SYS nnn and the undefined words (R85; 30_encoding.md R66; the numbers are the spec's decision D1, log entry 8):
which words they are, that SYS does nothing, and that the step of such a word advances PC by 2, ticks the timers,
takes the next inputs (how the model holds them is log entries 3, 4 and 5) and changes nothing else. -/
def Obligations.SysAndUndefinedWordsDoNothing : Prop :=
  (∀ nnn s, ∃ t, exec (.sys nnn) s = .next t ∧ ChangesOnly {} s t) ∧
  (∀ p w, (∃ nnn, decode p w = .ok (.sys nnn)) ↔ fieldCat w = 0x0 ∧ fieldN w ≠ 0x0 ∧ fieldN w ≠ 0xE) ∧
  (∀ p w, (∃ e, decode p w = .error e) ↔
    (fieldCat w = 0x8 ∧ fieldN w ∈ [0x8, 0x9, 0xA, 0xB, 0xC, 0xD, 0xF]) ∨
    (fieldCat w = 0xE ∧ fieldN w ∉ [0x1, 0xE]) ∨
    (fieldCat w = 0xF ∧ fieldKk w ∉ [0x07, 0x0A, 0x15, 0x18, 0x1E, 0x29, 0x33, 0x55, 0x65])) ∧
  ∀ s w, s.fault = none → s.fetch = some w →
    ((∃ e, decode s.params w = .error e) ∨ ∃ nnn, decode s.params w = .ok (.sys nnn)) →
    ∃ t, step s = .next t ∧ t.pc = s.pc + 2 ∧
      t.dt.toNat = s.dt.toNat - 1 ∧ t.st.toNat = s.st.toNat - 1 ∧
      ChangesOnly { pc := true, delay := true, sound := true, inputs := true } s t ∧
      (s.pending = [] → t.keys = s.keys ∧ t.rnd = Config.freeRandomByte s.rndDraws ∧
        t.rndDraws = s.rndDraws + 1 ∧ t.pending = []) ∧
      (∀ inp rest, s.pending = inp :: rest → t.keys = inp.keys ∧ t.rnd = inp.rnd ∧
        t.rndDraws = s.rndDraws ∧ t.pending = rest)

/-- JP nnn (R87; its number is the spec's decision D1, log entry 8): every word 0x1nnn decodes to it; PC becomes nnn,
zero-extended, and nothing else changes; a target of 0xFFF cannot be fetched from (20_memory.md R49, the bounds
policy D5, log entry 11). -/
def Obligations.JumpSetsPcToOperand : Prop :=
  RowDecodes 0xF000 0x1000 (fun w => .jp (fieldNnn w)) ∧
  ∀ nnn s, ∃ t, exec (.jp nnn) s = .next t ∧ t.pc.toNat = nnn.toNat ∧
    (nnn = 0xFFF → t.fetch = none) ∧ ChangesOnly { pc := true } s t

/-- CALL nnn with SP below 16: the advanced PC is pushed at stack[SP], SP counts it, PC becomes nnn, and nothing else
changes, in the stack either. -/
def Obligations.CallPushesReturnAddress : Prop :=
  ∀ nnn s (h : s.sp.val < 16), ∃ t, exec (.call nnn) s = .next t ∧
    t.stack.get ⟨s.sp.val, h⟩ = s.pc ∧ (∀ k : Fin 16, k.val ≠ s.sp.val → t.stack.get k = s.stack.get k) ∧
    t.sp.val = s.sp.val + 1 ∧ t.pc.toNat = nnn.toNat ∧ ChangesOnly { pc := true, stack := true } s t

/-- RET with SP above 0: SP counts one less, PC becomes the top entry, and nothing else changes: the popped slot keeps
its value. -/
def Obligations.ReturnPopsIntoPc : Prop :=
  ∀ pad s k, s.sp.val = k + 1 → ∃ t, exec (.ret pad) s = .next t ∧
    t.sp.val = k ∧ (∃ hk : k < 16, t.pc = s.stack.get ⟨k, hk⟩) ∧ t.stack = s.stack ∧
    ChangesOnly { pc := true, stack := true } s t

/-- CALL at SP = 16 takes StackOverflow and RET at SP = 0 takes StackUnderflow (60_exceptions.md R142; the record and
the latch are the spec's decision D8): PC is the instruction's address and only the latch changes beside it. -/
def Obligations.StackFaultsAreTaken : Prop :=
  (∀ nnn s, s.sp.val = 16 → ∃ t, exec (.call nnn) s = .next t ∧
    t.fault = some { kind := .stackOverflow, pc := s.pc - 2, opcode := some (encode (.call nnn)),
                     addr := none, access := none } ∧
    t.pc = s.pc - 2 ∧ ChangesOnly { pc := true, latch := true } s t) ∧
  (∀ pad s, s.sp.val = 0 → ∃ t, exec (.ret pad) s = .next t ∧
    t.fault = some { kind := .stackUnderflow, pc := s.pc - 2, opcode := some (encode (.ret pad)),
                     addr := none, access := none } ∧
    t.pc = s.pc - 2 ∧ ChangesOnly { pc := true, latch := true } s t)

/-- R94: a CALL run at the instruction address a, then a RET with the stack as the CALL left it, leaves PC = a + 2 and
SP as before the CALL. -/
def Obligations.ReturnUndoesCall : Prop :=
  ∀ nnn pad (s t u : State), s.sp.val < 16 → exec (.call nnn) s.advancePc = .next t →
    u.stack = t.stack → u.sp = t.sp →
    ∃ w, exec (.ret pad) u = .next w ∧ w.pc = s.pc + 2 ∧ w.sp = s.sp

/-- SE Vx, kk and SNE Vx, kk (R89, R90; their numbers are the spec's decision D1, log entry 8): the words 0x3xkk and
0x4xkk decode to them; PC gains 2 exactly when Vx = kk, respectively Vx ≠ kk, and nothing else changes. -/
def Obligations.SkipOnImmediate : Prop :=
  RowDecodes 0xF000 0x3000 (fun w => .seImm (fieldX w) (fieldKk w)) ∧
  RowDecodes 0xF000 0x4000 (fun w => .sneImm (fieldX w) (fieldKk w)) ∧
  ∀ x kk s,
    (∃ t, exec (.seImm x kk) s = .next t ∧
      (s.reg x = kk → t.pc = s.pc + 2) ∧ (s.reg x ≠ kk → t.pc = s.pc) ∧ ChangesOnly { pc := true } s t) ∧
    (∃ t, exec (.sneImm x kk) s = .next t ∧
      (s.reg x ≠ kk → t.pc = s.pc + 2) ∧ (s.reg x = kk → t.pc = s.pc) ∧ ChangesOnly { pc := true } s t)

/-- SE Vx, Vy (R91; its number is the spec's decision D1, log entry 8): every word 0x5xyN decodes to it; PC gains 2
exactly when Vx = Vy, so always when x = y, and nothing else changes. -/
def Obligations.SkipOnEqualRegisters : Prop :=
  RowDecodes 0xF000 0x5000 (fun w => .seReg (fieldX w) (fieldY w) (fieldN w)) ∧
  ∀ x y pad s, ∃ t, exec (.seReg x y pad) s = .next t ∧
    (s.reg x = s.reg y → t.pc = s.pc + 2) ∧ (s.reg x ≠ s.reg y → t.pc = s.pc) ∧
    (x = y → t.pc = s.pc + 2) ∧ ChangesOnly { pc := true } s t

/-- SNE Vx, Vy under both values of P_SNE_READS_V0 (R92; the parameter is the spec's decision D3): PC gains 2 exactly
when Vx differs from Vy, respectively from V0, and nothing else changes. -/
def Obligations.SkipOnUnequalRegisters : Prop :=
  ∀ x y pad s, ∃ t, exec (.sneReg x y pad) s = .next t ∧
    (s.params.sneReadsV0 = false →
      (s.reg x ≠ s.reg y → t.pc = s.pc + 2) ∧ (s.reg x = s.reg y → t.pc = s.pc)) ∧
    (s.params.sneReadsV0 = true →
      (s.reg x ≠ s.reg Reg.V0 → t.pc = s.pc + 2) ∧ (s.reg x = s.reg Reg.V0 → t.pc = s.pc)) ∧
    ChangesOnly { pc := true } s t

/-- JP V0, nnn (R95): PC becomes V0 + nnn, a sum of at most 0x10FE that does not wrap, and nothing else changes; from
a sum above 0xFFE no fetch succeeds (20_memory.md R49, the bounds policy D5, log entry 11). -/
def Obligations.JumpOffsetAddsV0 : Prop :=
  ∀ nnn s, ∃ t, exec (.jpV0 nnn) s = .next t ∧
    t.pc.toNat = (s.reg Reg.V0).toNat + nnn.toNat ∧
    (0xFFE < (s.reg Reg.V0).toNat + nnn.toNat → t.fetch = none) ∧ ChangesOnly { pc := true } s t

/-! ## Registers and ALU (42_alu.md) -/

/-- LD Vx, kk (R100): every word 0x6xkk decodes to it; Vx gets kk, and nothing else changes. -/
def Obligations.LoadImmediateSetsRegister : Prop :=
  RowDecodes 0xF000 0x6000 (fun w => .ldImm (fieldX w) (fieldKk w)) ∧
  ∀ x kk s, ∃ t, exec (.ldImm x kk) s = .next t ∧ t.reg x = kk ∧ ChangesOnly { regs := [x] } s t

/-- LD Vx, Vy (R101; its number is the spec's decision D1): every word 0x8xy0 decodes to it; Vx gets the value of Vy,
and nothing else changes. -/
def Obligations.LoadRegisterCopies : Prop :=
  RowDecodes 0xF00F 0x8000 (fun w => .ldReg (fieldX w) (fieldY w)) ∧
  ∀ x y s, ∃ t, exec (.ldReg x y) s = .next t ∧ t.reg x = s.reg y ∧ ChangesOnly { regs := [x] } s t

/-- ADD Vx, kk (R102): every word 0x7xkk decodes to it; Vx becomes (Vx + kk) mod 256, and nothing else changes, VF
either, unless x = F. -/
def Obligations.AddImmediateWrapsWithoutFlag : Prop :=
  RowDecodes 0xF000 0x7000 (fun w => .addImm (fieldX w) (fieldKk w)) ∧
  ∀ x kk s, ∃ t, exec (.addImm x kk) s = .next t ∧
    (t.reg x).toNat = ((s.reg x).toNat + kk.toNat) % 256 ∧ ChangesOnly { regs := [x] } s t

/-- OR and XOR (R103, R105; their numbers are the spec's decision D1, log entry 8): the words 0x8xy1 and 0x8xy3 decode
to them, 0x8xy2 to OR under P_AND_IS_OR; each bit of Vx becomes the or, respectively the exclusive or, of the two
bits, and nothing else changes. -/
def Obligations.OrXorActBitwise : Prop :=
  RowDecodes 0xF00F 0x8001 (fun w => .orReg (fieldX w) (fieldY w)) ∧
  RowDecodes 0xF00F 0x8003 (fun w => .xorReg (fieldX w) (fieldY w)) ∧
  (∀ p w, p.andIsOr = true → w &&& 0xF00F = 0x8002 → decode p w = .ok (.orReg (fieldX w) (fieldY w))) ∧
  ∀ x y s,
    (∃ t, exec (.orReg x y) s = .next t ∧
      (∀ j, (t.reg x).getLsbD j = ((s.reg x).getLsbD j || (s.reg y).getLsbD j)) ∧
      ChangesOnly { regs := [x] } s t) ∧
    (∃ t, exec (.xorReg x y) s = .next t ∧
      (∀ j, (t.reg x).getLsbD j = ((s.reg x).getLsbD j != (s.reg y).getLsbD j)) ∧
      ChangesOnly { regs := [x] } s t)

/-- AND (R104; its number is the spec's decision D1, the parameter D3): 0x8xy2 decodes to AND when P_AND_IS_OR is
false; each bit of Vx becomes the and of the two bits, and nothing else changes. -/
def Obligations.AndActsBitwise : Prop :=
  (∀ p w, p.andIsOr = false → w &&& 0xF00F = 0x8002 → decode p w = .ok (.andReg (fieldX w) (fieldY w))) ∧
  ∀ x y s, ∃ t, exec (.andReg x y) s = .next t ∧
    (∀ j, (t.reg x).getLsbD j = ((s.reg x).getLsbD j && (s.reg y).getLsbD j)) ∧
    ChangesOnly { regs := [x] } s t

/-- ADD Vx, Vy (R106; x = F by the spec's decision D4): Vx becomes the sum mod 256 of the registers as they were, VF
the carry, the sum winning when x = F, and nothing else changes. -/
def Obligations.AddRegistersSetsCarry : Prop :=
  ∀ x y s, ∃ t, exec (.addReg x y) s = .next t ∧
    (t.reg x).toNat = ((s.reg x).toNat + (s.reg y).toNat) % 256 ∧
    (x ≠ Reg.VF → 255 < (s.reg x).toNat + (s.reg y).toNat → t.reg Reg.VF = 1) ∧
    (x ≠ Reg.VF → (s.reg x).toNat + (s.reg y).toNat ≤ 255 → t.reg Reg.VF = 0) ∧
    ChangesOnly { regs := [x, Reg.VF] } s t

/-- SUB Vx, Vy (R107; x = F or y = F by the spec's decision D4): with f = 1 when Vx > Vy strictly and 0 otherwise, VF
becomes f and Vx the difference mod 256, the operand VF reading as f; when x = F the difference wins. Nothing else
changes. -/
def Obligations.SubtractSetsGreaterFlag : Prop :=
  ∀ x y s f, f = (if (s.reg y).toNat < (s.reg x).toNat then 1 else 0) →
    ∃ t, exec (.sub x y) s = .next t ∧
      (x ≠ Reg.VF → (t.reg Reg.VF).toNat = f) ∧
      (x ≠ Reg.VF → y ≠ Reg.VF → (t.reg x).toNat = ((s.reg x).toNat + 256 - (s.reg y).toNat) % 256) ∧
      (x = Reg.VF → y ≠ Reg.VF → (t.reg x).toNat = (f + 256 - (s.reg y).toNat) % 256) ∧
      (x ≠ Reg.VF → y = Reg.VF → (t.reg x).toNat = ((s.reg x).toNat + 256 - f) % 256) ∧
      (x = Reg.VF → y = Reg.VF → t.reg x = 0) ∧
      ChangesOnly { regs := [x, Reg.VF] } s t

/-- SUBN Vx, Vy (R108; x = F or y = F by the spec's decision D4): as SUB, with the operands' roles exchanged. -/
def Obligations.SubtractReverseSetsGreaterFlag : Prop :=
  ∀ x y s f, f = (if (s.reg x).toNat < (s.reg y).toNat then 1 else 0) →
    ∃ t, exec (.subn x y) s = .next t ∧
      (x ≠ Reg.VF → (t.reg Reg.VF).toNat = f) ∧
      (x ≠ Reg.VF → y ≠ Reg.VF → (t.reg x).toNat = ((s.reg y).toNat + 256 - (s.reg x).toNat) % 256) ∧
      (x = Reg.VF → y ≠ Reg.VF → (t.reg x).toNat = ((s.reg y).toNat + 256 - f) % 256) ∧
      (x ≠ Reg.VF → y = Reg.VF → (t.reg x).toNat = (f + 256 - (s.reg x).toNat) % 256) ∧
      (x = Reg.VF → y = Reg.VF → t.reg x = 0) ∧
      ChangesOnly { regs := [x, Reg.VF] } s t

/-- SHR Vx and SHL Vx (R109, R110; x = F by the spec's decision D4): VF becomes the bit shifted out and Vx the shifted
value; when x = F the register ends as 0, respectively twice the old bit 7. Nothing else changes. -/
def Obligations.ShiftsSetShiftedOutBit : Prop :=
  ∀ x pad s,
    (∃ t, exec (.shr x pad) s = .next t ∧
      (x ≠ Reg.VF → (t.reg x).toNat = (s.reg x).toNat / 2 ∧ (t.reg Reg.VF).toNat = (s.reg x).toNat % 2) ∧
      (x = Reg.VF → t.reg x = 0) ∧ ChangesOnly { regs := [x, Reg.VF] } s t) ∧
    (∃ t, exec (.shl x pad) s = .next t ∧
      (x ≠ Reg.VF → (t.reg x).toNat = (s.reg x).toNat * 2 % 256 ∧
        (t.reg Reg.VF).toNat = (s.reg x).toNat / 128) ∧
      (x = Reg.VF → (t.reg x).toNat = (s.reg x).toNat / 128 * 2) ∧ ChangesOnly { regs := [x, Reg.VF] } s t)

/-- RND Vx, kk (R111; the random byte is a free input, the spec's decision D19, log entry 4): for every input byte,
each bit of Vx becomes the and of its bit and kk's, and nothing else changes. -/
def Obligations.RandomIsMaskedInputByte : Prop :=
  ∀ x kk s, ∃ t, exec (.rnd x kk) s = .next t ∧
    (∀ j, (t.reg x).getLsbD j = (s.rnd.getLsbD j && kk.getLsbD j)) ∧ ChangesOnly { regs := [x] } s t

/-! ## Index register and memory (43_index_memory.md) -/

/-- LD I, nnn (R118; its number is the spec's decision D1, log entry 8): every word 0xAnnn decodes to it; I becomes
nnn, zero-extended, and nothing else changes. -/
def Obligations.LoadIndexSetsOperand : Prop :=
  RowDecodes 0xF000 0xA000 (fun w => .ldI (fieldNnn w)) ∧
  ∀ nnn s, ∃ t, exec (.ldI nnn) s = .next t ∧ t.i.toNat = nnn.toNat ∧ ChangesOnly { index := true } s t

/-- ADD I, Vx (R119; that I wraps modulo 2^16 is the spec's decision D13, log entry 26): I becomes (I + Vx) mod 2^16,
and nothing else changes, VF either. -/
def Obligations.AddIndexWrapsWithoutFlag : Prop :=
  ∀ x s, ∃ t, exec (.addI x) s = .next t ∧ t.i.toNat = (s.i.toNat + (s.reg x).toNat) % 65536 ∧
    ChangesOnly { index := true } s t

/-- LD F, Vx (R120; unmasked above 15 by the spec's decision D10): I becomes 0x050 + 5 × Vx, and nothing else changes. -/
def Obligations.LoadGlyphAddress : Prop :=
  ∀ x s, ∃ t, exec (.ldF x) s = .next t ∧ t.i.toNat = 0x050 + 5 * (s.reg x).toNat ∧
    ChangesOnly { index := true } s t

/-- LD B, Vx inside memory and not a reserved write (R121; the parameter is the spec's decision D6, I unchanged D11):
the three bytes from I, the address the meaning stores to, become the hundreds, tens and ones digits, and nothing
else changes. -/
def Obligations.StoreBcdWritesDigits : Prop :=
  ∀ x s, s.i.toNat + 2 < 4096 → (s.params.lowmemWriteFault = false ∨ 0x200 ≤ s.i.toNat) →
    s.dataAddress = s.i.toNat ∧ ∃ t, exec (.ldB x) s = .next t ∧
      (t.byte s.dataAddress).toNat = (s.reg x).toNat / 100 ∧
      (t.byte (s.dataAddress + 1)).toNat = (s.reg x).toNat / 10 % 10 ∧
      (t.byte (s.dataAddress + 2)).toNat = (s.reg x).toNat % 10 ∧
      ChangesOnly { storeBase := s.dataAddress, stored := 3 } s t

/-- LD [I], Vx inside memory and not a reserved write (R122; the parameter is the spec's decision D6, I unchanged
D11): byte I + k becomes Vk for k up to x, and nothing else changes. -/
def Obligations.StoreBlockWritesRegisters : Prop :=
  ∀ x s, s.i.toNat + x.val < 4096 → (s.params.lowmemWriteFault = false ∨ 0x200 ≤ s.i.toNat) →
    s.dataAddress = s.i.toNat ∧ ∃ t, exec (.ldMemVx x) s = .next t ∧
      (∀ k : Reg, k.val ≤ x.val → t.byte (s.dataAddress + k.val) = s.reg k) ∧
      ChangesOnly { storeBase := s.dataAddress, stored := x.val + 1 } s t

/-- LD Vx, [I] inside memory (R123; I unchanged by the spec's decision D11): Vk becomes byte I + k for k up to x, and
nothing else changes, any register above x either. -/
def Obligations.LoadBlockReadsRegisters : Prop :=
  ∀ x s, s.i.toNat + x.val < 4096 → ∃ t, exec (.ldVxMem x) s = .next t ∧
    (∀ k : Reg, k.val ≤ x.val → t.reg k = s.byte (s.i.toNat + k.val)) ∧
    (∀ k : Reg, x.val < k.val → t.reg k = s.reg k) ∧
    ChangesOnly { regs := (List.finRange 16).filter fun k => k.val ≤ x.val } s t

/-- The faults of the memory instructions (20_memory.md R47, R48; 43_index_memory.md R116; the bounds policy and the
record are the spec's decisions D5, D6, D8): what each latches, with PC back on the instruction and nothing else
changed, memory and registers either. -/
def Obligations.BlockAccessFaultsAreTaken : Prop :=
  ∀ i s bytes access,
    ((∃ x, i = .ldB x ∧ bytes = 3 ∧ access = .write) ∨
     (∃ x, i = .ldMemVx x ∧ bytes = x.val + 1 ∧ access = .write) ∨
     (∃ x, i = .ldVxMem x ∧ bytes = x.val + 1 ∧ access = .read) ∨
     (∃ x y n, i = .drw x y n ∧ bytes = n.toNat ∧ 1 ≤ bytes ∧ access = .read)) →
    (4096 ≤ s.i.toNat + bytes - 1 →
      ∃ t, exec i s = .next t ∧
        t.fault = some { kind := .memoryBounds, pc := s.pc - 2, opcode := some (encode i),
                         addr := some (max s.i.toNat 4096), access := some access } ∧
        t.pc = s.pc - 2 ∧ ChangesOnly { pc := true, latch := true } s t) ∧
    (access = .write → s.params.lowmemWriteFault = true → s.i.toNat < 0x200 →
      ∃ t, exec i s = .next t ∧
        t.fault = some { kind := .reservedWrite, pc := s.pc - 2, opcode := some (encode i),
                         addr := some s.i.toNat, access := some .write } ∧
        t.pc = s.pc - 2 ∧ ChangesOnly { pc := true, latch := true } s t)

/-- R117: LD [I], Vx, then LD Vx, [I] with the same x and I and the stored bytes as the store left them, restores
V0..Vx to their values at the store. -/
def Obligations.LoadBlockUndoesStoreBlock : Prop :=
  ∀ x s t u, exec (.ldMemVx x) s = .next t → t.fault = none →
    u.i = s.i → (∀ k, k ≤ x.val → u.byte (s.i.toNat + k) = t.byte (s.i.toNat + k)) →
    ∃ w, exec (.ldVxMem x) u = .next w ∧ ∀ k : Reg, k.val ≤ x.val → w.reg k = s.reg k

/-- R56, with the digits of R121 and the registers of R122 as the stored bytes (the addresses that can be fetched are
the bounds policy D5, log entry 11; that an odd PC is fetched from like any other is the spec's decision D12, log
entry 15): after LD B, Vx or LD [I], Vx, a fetch whose two bytes nothing has written since reads each byte inside the
block as the stored one and each byte outside it as it was before the store, as a big-endian word, wherever PC
stands. -/
def Obligations.StoredBytesAreFetched : Prop :=
  ∀ i bytes (stored : Nat → Byte) (s t u : State),
    ((∃ x, i = .ldB x ∧ bytes = 3 ∧ (stored 0).toNat = (s.reg x).toNat / 100 ∧
        (stored 1).toNat = (s.reg x).toNat / 10 % 10 ∧ (stored 2).toNat = (s.reg x).toNat % 10) ∨
     (∃ x, i = .ldMemVx x ∧ bytes = x.val + 1 ∧ ∀ k : Reg, k.val ≤ x.val → stored k.val = s.reg k)) →
    exec i s = .next t → t.fault = none →
    u.pc.toNat ≤ 0xFFE → u.byte u.pc.toNat = t.byte u.pc.toNat →
    u.byte (u.pc.toNat + 1) = t.byte (u.pc.toNat + 1) →
    ∃ w : Word, u.fetch = some w ∧
      w.toNat = 256 * (byteOver s s.dataAddress bytes stored u.pc.toNat).toNat +
        (byteOver s s.dataAddress bytes stored (u.pc.toNat + 1)).toNat

/-! ## Keypad and timers (44_keypad_timers.md) -/

/-- SKP Vx and SKNP Vx with Vx at most 15 (R128, R129): PC gains 2 exactly when key Vx is pressed, respectively
released, and nothing else changes. -/
def Obligations.SkipOnKey : Prop :=
  ∀ x pad s (h : (s.reg x).toNat < 16),
    (∃ t, exec (.skp x pad) s = .next t ∧
      (s.keys.get ⟨(s.reg x).toNat, h⟩ = true → t.pc = s.pc + 2) ∧
      (s.keys.get ⟨(s.reg x).toNat, h⟩ = false → t.pc = s.pc) ∧ ChangesOnly { pc := true } s t) ∧
    (∃ t, exec (.sknp x pad) s = .next t ∧
      (s.keys.get ⟨(s.reg x).toNat, h⟩ = false → t.pc = s.pc + 2) ∧
      (s.keys.get ⟨(s.reg x).toNat, h⟩ = true → t.pc = s.pc) ∧ ChangesOnly { pc := true } s t)

/-- SKP Vx and SKNP Vx with Vx above 15 take KeyIndex (R125; the fault is the spec's decision D9, its form D8). -/
def Obligations.KeyIndexFaultIsTaken : Prop :=
  ∀ i x pad s, (i = .skp x pad ∨ i = .sknp x pad) → 15 < (s.reg x).toNat →
    ∃ t, exec i s = .next t ∧
      t.fault = some { kind := .keyIndex, pc := s.pc - 2, opcode := some (encode i),
                       addr := some (s.reg x).toNat, access := none } ∧
      t.pc = s.pc - 2 ∧ ChangesOnly { pc := true, latch := true } s t

/-- LD Vx, K (R130): with a key pressed, Vx becomes the index of the lowest pressed line and PC stays; with none, PC
goes back by 2 and Vx stays. Nothing else changes in either case. -/
def Obligations.WaitForKeyTakesLowestOrRearms : Prop :=
  ∀ x s,
    (∀ k : KeyIx, s.keys.get k = true → (∀ j : KeyIx, j.val < k.val → s.keys.get j = false) →
      ∃ t, exec (.ldVxK x) s = .next t ∧ (t.reg x).toNat = k.val ∧ ChangesOnly { regs := [x] } s t) ∧
    ((∀ k : KeyIx, s.keys.get k = false) →
      ∃ t, exec (.ldVxK x) s = .next t ∧ t.pc = s.pc - 2 ∧ ChangesOnly { pc := true } s t)

/-- LD Vx, DT (R131): Vx becomes DT as it was before the step's tick, and nothing else changes. -/
def Obligations.ReadDelayTimer : Prop :=
  ∀ x s, ∃ t, exec (.ldVxDt x) s = .next t ∧ t.reg x = s.dt ∧ ChangesOnly { regs := [x] } s t

/-- LD DT, Vx and LD ST, Vx (R132, R133; their numbers are the spec's decision D1, log entry 8): the words 0xFx15 and
0xFx18 decode to them; DT, respectively ST, becomes Vx and nothing else changes; the tick of the same step then
applies to the new value, so after LD ST, Vx the output sound_active (R127, the spec's decision D17, log entry 24) is
on exactly when Vx is above 1. -/
def Obligations.WriteTimersThenTick : Prop :=
  RowDecodes 0xF0FF 0xF015 (fun w => .ldDtVx (fieldX w)) ∧
  RowDecodes 0xF0FF 0xF018 (fun w => .ldStVx (fieldX w)) ∧
  ∀ x s,
    (∃ t, exec (.ldDtVx x) s = .next t ∧ t.dt = s.reg x ∧ ChangesOnly { delay := true } s t) ∧
    (∃ t, exec (.ldStVx x) s = .next t ∧ t.st = s.reg x ∧ ChangesOnly { sound := true } s t) ∧
    (s.running = some (.ldDtVx x) → ∃ t, step s = .next t ∧ t.dt.toNat = (s.reg x).toNat - 1) ∧
    (s.running = some (.ldStVx x) → ∃ t, step s = .next t ∧ t.st.toNat = (s.reg x).toNat - 1 ∧
      (t.soundActive = true ↔ 1 < (s.reg x).toNat))

/-! ## Encoding (30_encoding.md) -/

/-- Decoding the word of a well-formed instruction gives the instruction back, with every operand; 0x8xy2 under
P_AND_IS_OR (the spec's decision D3) is the one exception (R64; the numbers are the spec's decision D1, log entry 8). -/
def Obligations.DecodeInvertsEncode : Prop :=
  ∀ p i, i.wf = true → (p.andIsOr = false ∨ ∀ x y, i ≠ .andReg x y) → decode p (encode i) = .ok i

/-- Whatever a word decodes to is well-formed, and without P_AND_IS_OR (the spec's decision D3) its word is the one
decoded: no bit of a word is dropped (R64, R67; the ignored bits are operands, log entry 17; the numbers are the
spec's decision D1, log entry 8). -/
def Obligations.EncodeInvertsDecode : Prop :=
  ∀ p w i, decode p w = .ok i → i.wf = true ∧ (p.andIsOr = false → encode i = w)

/-- The rows of the opcode map (30_encoding.md R65, "matched by") that have no clause in their instruction's own
statement: every word a row matches decodes to the row's instruction, whatever the ignored bits (R67). And words that the
spec writes out decode to the instructions it says (95_test_vectors.md L1 and L2; the example of 40_display.md R81). The
numbers but those of CLS, RET, CALL, LD Vx, kk and ADD Vx, kk are the spec's decision D1, log entry 8. -/
def Obligations.SpecWordsDecode : Prop :=
  RowDecodes 0xF00F 0x000E (fun w => .ret (fieldPad w)) ∧
  RowDecodes 0xF000 0x2000 (fun w => .call (fieldNnn w)) ∧
  RowDecodes 0xF000 0x9000 (fun w => .sneReg (fieldX w) (fieldY w) (fieldN w)) ∧
  RowDecodes 0xF000 0xB000 (fun w => .jpV0 (fieldNnn w)) ∧
  RowDecodes 0xF00F 0x8004 (fun w => .addReg (fieldX w) (fieldY w)) ∧
  RowDecodes 0xF00F 0x8005 (fun w => .sub (fieldX w) (fieldY w)) ∧
  RowDecodes 0xF00F 0x8006 (fun w => .shr (fieldX w) (fieldMid w)) ∧
  RowDecodes 0xF00F 0x8007 (fun w => .subn (fieldX w) (fieldY w)) ∧
  RowDecodes 0xF00F 0x800E (fun w => .shl (fieldX w) (fieldMid w)) ∧
  RowDecodes 0xF000 0xC000 (fun w => .rnd (fieldX w) (fieldKk w)) ∧
  RowDecodes 0xF000 0xD000 (fun w => .drw (fieldX w) (fieldY w) (fieldN w)) ∧
  RowDecodes 0xF00F 0xE00E (fun w => .skp (fieldX w) (fieldMid w)) ∧
  RowDecodes 0xF00F 0xE001 (fun w => .sknp (fieldX w) (fieldMid w)) ∧
  RowDecodes 0xF0FF 0xF007 (fun w => .ldVxDt (fieldX w)) ∧
  RowDecodes 0xF0FF 0xF00A (fun w => .ldVxK (fieldX w)) ∧
  RowDecodes 0xF0FF 0xF01E (fun w => .addI (fieldX w)) ∧
  RowDecodes 0xF0FF 0xF029 (fun w => .ldF (fieldX w)) ∧
  RowDecodes 0xF0FF 0xF033 (fun w => .ldB (fieldX w)) ∧
  RowDecodes 0xF0FF 0xF055 (fun w => .ldMemVx (fieldX w)) ∧
  RowDecodes 0xF0FF 0xF065 (fun w => .ldVxMem (fieldX w)) ∧
  decode {} 0x00E0 = .ok (.cls 0x0E) ∧ decode {} 0x00EE = .ok (.ret 0x0E) ∧
  decode {} 0x2300 = .ok (.call 0x300) ∧ decode {} 0x6A05 = .ok (.ldImm 10 0x05) ∧
  decode {} 0x7A03 = .ok (.addImm 10 0x03) ∧ decode {} 0x8125 = .ok (.sub 1 2) ∧
  decode {} 0xD015 = .ok (.drw 0 1 5) ∧ decode {} 0xE19E = .ok (.skp 1 9) ∧
  decode {} 0xF30A = .ok (.ldVxK 3) ∧ decode {} 0xF255 = .ok (.ldMemVx 2)

/-! ## Construction (10_state.md R34; 70_reset_and_hazards.md R160 to R162) -/

/-- Construction: a request for the third defect fails (R156, the spec's decision D3, log entry 21), and so does a
ROM above 3584 bytes; any other gives the clean launch of R162, with the bytes of FONT and the ROM and 0 elsewhere
(the zero stack, the zero memory and the unlit framebuffer are the spec's decision D14, log entries 6 and 23; the one
load, the empty ROM among those allowed, is D20). The reset state is the construction with the defaults and an empty
ROM. -/
def Obligations.ConstructionGivesCleanLaunch : Prop :=
  (∀ c rom, c.loadDelayIndexDefect = true → construct c rom = .error .refusedConfiguration) ∧
  (∀ c rom, c.loadDelayIndexDefect = false → 3584 < rom.length →
    construct c rom = .error (.romLoad rom.length)) ∧
  (∀ c rom, c.loadDelayIndexDefect = false → rom.length ≤ 3584 →
    ∃ s, construct c rom = .ok s ∧ s.pc = 0x200 ∧ s.sp.val = 0 ∧ (∀ k, s.reg k = 0) ∧ s.i = 0 ∧
      s.dt = 0 ∧ s.st = 0 ∧ (∀ k, s.stack.get k = 0) ∧ (∀ r c, Framebuffer.pixel s.fb r c = false) ∧
      s.fault = none ∧ s.params = c.params ∧
      (∀ k (h : k < 80), s.byte (0x050 + k) = c.font[k]) ∧
      (∀ k (h : k < rom.length), s.byte (0x200 + k) = rom[k]) ∧
      (∀ a, (a < 0x050 ∨ (0x0A0 ≤ a ∧ a < 0x200) ∨ 0x200 + rom.length ≤ a) → s.byte a = 0)) ∧
  construct {} [] = .ok State.reset

/-! ## The step and its invariants (30_encoding.md R70; 60_exceptions.md) -/

/-- The reset state meets the three invariants below. -/
def Obligations.ResetMeetsInvariants : Prop :=
  MemoryCanonical State.reset ∧ PcAndStackInRange State.reset ∧ LatchConsistent State.reset

/-- Every step keeps memory in its canonical form (log entry 6). -/
def Obligations.StepKeepsMemoryCanonical : Prop :=
  ∀ s t, MemoryCanonical s → step s = .next t → MemoryCanonical t

/-- Every step keeps PC at most 0x10FE and the stacked return addresses at most 0x1000 (41_control_flow.md R86, R95;
10_state.md R23; that nothing is fetched above 0xFFE is the bounds policy D5, log entry 11, the widths are D13, log
entry 26). -/
def Obligations.StepKeepsPcAndStackInRange : Prop :=
  ∀ s t, PcAndStackInRange s → step s = .next t → PcAndStackInRange t

/-- Every step keeps the latch consistent: a latched record names the instruction PC stands at and has the fields its
kind gives it (60_exceptions.md R141; the record is the spec's decisions D8 and D26, and the bounds, the key range
and the protected region that it reports are D5, D9 and D6). -/
def Obligations.StepKeepsLatchConsistent : Prop :=
  ∀ s t, LatchConsistent s → step s = .next t → LatchConsistent t

/-- With P_LOWMEM_WRITE_FAULT set, no step changes a byte below 0x200 (20_memory.md R41, R50; the parameter is the
spec's decision D6). -/
def Obligations.LowMemoryIsProtected : Prop :=
  ∀ s t a, s.params.lowmemWriteFault = true → step s = .next t → a < 0x200 → t.byte a = s.byte a

/-- Faults are precise (60_exceptions.md R140; the spec's decision D8): a step that latches a fault changes the latch
alone, the timers and PC either, and the record names the address of the instruction. -/
def Obligations.FaultsArePrecise : Prop :=
  ∀ s t r, step s = .next t → t.fault = some r → t = { s with fault := some r } ∧ r.pc = s.pc

/-- Nothing else faults (60_exceptions.md R142, R143; MemoryBounds is the spec's decision D5, log entry 11, KeyIndex
D9, log entry 16, ReservedWrite D6, the record D8): an instruction raises exactly the fault the table gives it, and
the record names its address and its word. -/
def Obligations.OnlyTabledFaultsAreRaised : Prop :=
  ∀ i s t, s.fault = none → exec i s = .next t →
    t.fault.map (fun r => r.kind) = expectedFault i s ∧
    ∀ r, t.fault = some r → r.pc = s.pc - 2 ∧ r.opcode = some (encode i)

/-- A core without a fault always takes a step; a faulted one answers its record and does not run (60_exceptions.md
R144; the sticky latch is the spec's decision D8, the outcome log entry 1). -/
def Obligations.OnlyFaultedCoreStops : Prop :=
  ∀ s, (s.fault = none → ∃ t, step s = .next t) ∧ (∀ r, s.fault = some r → step s = .fault (.coreFaulted r))

/-- A step runs the decoded instruction (30_encoding.md R70, R71): the big-endian word at PC decodes to i, i runs
with PC advanced by 2, and then, unless it faulted, each timer ticks and the next inputs are taken. That every PC up
to 0xFFE is fetched from, an odd one too, is the spec's decisions D5 and D12 (log entries 11 and 15); that every
completed step ticks and a faulting step neither ticks nor takes inputs is D8 and D21 (log entries 1 and 27); how the
model holds the inputs is log entries 3, 4 and 5. -/
def Obligations.StepRunsDecodedInstruction : Prop :=
  ∀ s i t, s.fault = none → s.pc.toNat ≤ 0xFFE →
    decode s.params (wordOfBytes (s.byte s.pc.toNat) (s.byte (s.pc.toNat + 1))) = .ok i →
    exec i (s.setPc (s.pc + 2)) = .next t →
    (t.fault ≠ none → step s = .next t) ∧
    (t.fault = none → ∃ u, step s = .next u ∧
      u.dt.toNat = t.dt.toNat - 1 ∧ u.st.toNat = t.st.toNat - 1 ∧
      ChangesOnly { delay := true, sound := true, inputs := true } t u ∧
      (t.pending = [] → u.keys = t.keys ∧ u.rnd = Config.freeRandomByte t.rndDraws ∧
        u.rndDraws = t.rndDraws + 1 ∧ u.pending = []) ∧
      (∀ inp rest, t.pending = inp :: rest → u.keys = inp.keys ∧ u.rnd = inp.rnd ∧
        u.rndDraws = t.rndDraws ∧ u.pending = rest))

/-- A fetch with PC above 0xFFE takes MemoryBounds (20_memory.md R47, R49; bounds and record are the spec's decisions
D5 and D26), and only the latch changes. -/
def Obligations.FetchOutOfBoundsFaults : Prop :=
  ∀ s, s.fault = none → 0xFFE < s.pc.toNat → ∃ t, step s = .next t ∧
    t.fault = some { kind := .memoryBounds, pc := s.pc, opcode := none, addr := some (max s.pc.toNat 4096),
                     access := some .fetch } ∧
    ChangesOnly { latch := true } s t

/-- Every completed step ticks each timer once (30_encoding.md R72; 44_keypad_timers.md R126; the spec's decision
D21): each ends one lower and not below 0, counted from Vx in the step of LD DT, Vx or LD ST, Vx; and the output
sound_active is on exactly when ST is not 0 (44_keypad_timers.md R127, the spec's decision D17, log entry 24). -/
def Obligations.CompletedStepTicksTimers : Prop :=
  ∀ s t, step s = .next t → t.fault = none →
    (∀ x, s.running = some (.ldDtVx x) → t.dt.toNat = (s.reg x).toNat - 1) ∧
    ((∀ x, s.running ≠ some (.ldDtVx x)) → t.dt.toNat = s.dt.toNat - 1) ∧
    (∀ x, s.running = some (.ldStVx x) → t.st.toNat = (s.reg x).toNat - 1) ∧
    ((∀ x, s.running ≠ some (.ldStVx x)) → t.st.toNat = s.st.toNat - 1) ∧
    (t.soundActive = true ↔ t.st.toNat ≠ 0)

/-- The framebuffer is mutated only by CLS and DRW (10_state.md R28). -/
def Obligations.OnlyClsAndDrwMutateFramebuffer : Prop :=
  ∀ s t, step s = .next t → (∃ r c, Framebuffer.pixel t.fb r c ≠ Framebuffer.pixel s.fb r c) →
    (∃ pad, s.running = some (.cls pad)) ∨ ∃ x y n, s.running = some (.drw x y n)

/-- Memory is written only by LD B and LD [I], and only in their blocks (20_memory.md R45). -/
def Obligations.OnlyBlockStoresWriteMemory : Prop :=
  ∀ s t a, step s = .next t → t.byte a ≠ s.byte a →
    (∃ x, s.running = some (.ldB x) ∧ s.i.toNat ≤ a ∧ a ≤ s.i.toNat + 2) ∨
    ∃ x, s.running = some (.ldMemVx x) ∧ s.i.toNat ≤ a ∧ a ≤ s.i.toNat + x.val

/-- I is written only by LD I, ADD I and LD F (10_state.md R22; that LD B, LD [I], Vx and LD Vx, [I] leave it is the
spec's decision D11, log entry 13); SP only by CALL and RET, and the stack's entries only by CALL (10_state.md R24). -/
def Obligations.OnlyTheirInstructionsWriteIndexAndStack : Prop :=
  ∀ s t, step s = .next t →
    (t.i ≠ s.i → (∃ nnn, s.running = some (.ldI nnn)) ∨
      ∃ x, s.running = some (.addI x) ∨ s.running = some (.ldF x)) ∧
    (t.sp ≠ s.sp → (∃ nnn, s.running = some (.call nnn)) ∨ ∃ pad, s.running = some (.ret pad)) ∧
    (t.stack ≠ s.stack → ∃ nnn, s.running = some (.call nnn))

/-- A V register changes only as the destination of the instruction, or, VF, as the flag of an instruction that
defines one (10_state.md R21, R31). -/
def Obligations.OnlyDestinationsAndFlagsChange : Prop :=
  ∀ s t k, step s = .next t → t.reg k ≠ s.reg k →
    ∃ i, s.running = some i ∧ (k ∈ destinations i ∨ (k = Reg.VF ∧ writesFlag i = true))

/-- No instruction writes the key lines or the other inputs of a step (10_state.md R29), and no step changes the
parameters (00_scope.md R4; that State carries them is log entry 2). -/
def Obligations.InputsAndParametersAreReadOnly : Prop :=
  (∀ i s t, exec i s = .next t →
    t.keys = s.keys ∧ t.rnd = s.rnd ∧ t.rndDraws = s.rndDraws ∧ t.pending = s.pending) ∧
  ∀ s t, step s = .next t → t.params = s.params

/-- Where a handler that does not fault leaves PC (10_state.md R23; PC arithmetic mod 2^16 is the spec's decision
D13, log entry 26): an absolute target, a taken skip, the re-arm of LD Vx, K, or where it was. -/
def Obligations.HandlersLeavePcInOneOfFourPlaces : Prop :=
  ∀ i s t, s.fault = none → exec i s = .next t → t.fault = none →
    match i with
    | .jp nnn | .call nnn => t.pc.toNat = nnn.toNat
    | .ret _ => ∃ k : Fin 16, s.sp.val = k.val + 1 ∧ t.pc = s.stack.get k
    | .jpV0 nnn => t.pc.toNat = (s.reg Reg.V0).toNat + nnn.toNat
    | .seImm _ _ | .sneImm _ _ | .seReg _ _ _ | .sneReg _ _ _ | .skp _ _ | .sknp _ _ =>
      t.pc = s.pc ∨ t.pc = s.pc + 2
    | .ldVxK _ => t.pc = s.pc ∨ t.pc = s.pc - 2
    | _ => t.pc = s.pc
end

