-- ==== Sys2Proof/Laws/Display.lean ====
section
/-! SUPPORT. What drawing does to one pixel, and which pixels a sprite's set bits name. -/

namespace Sys2Proof.Machine

theorem Framebuffer.pixel_toggle (fb : Framebuffer) (r r' : Fin fbRows) (c c' : Fin fbCols) :
    Framebuffer.pixel (Framebuffer.toggle fb r c) r' c' =
      if (r', c') = (r, c) then !Framebuffer.pixel fb r c else Framebuffer.pixel fb r' c' := by
  unfold Framebuffer.pixel Framebuffer.toggle
  by_cases hr : r = r'
  · subst hr
    by_cases hc : c = c'
    · subst hc; simp [Vector.get_eq_getElem, Framebuffer.pixel]
    · have h1 : c.val ≠ c'.val := fun e => hc (Fin.ext e)
      have h2 : c' ≠ c := fun e => hc e.symm
      simp [Vector.get_eq_getElem, h1, h2]
  · have h1 : r.val ≠ r'.val := fun e => hr (Fin.ext e)
    have h2 : r' ≠ r := fun e => hr e.symm
    simp [Vector.get_eq_getElem, h1, h2]

@[simp] theorem Framebuffer.pixel_clear (r : Fin fbRows) (c : Fin fbCols) :
    Framebuffer.pixel Framebuffer.clear r c = false := by
  simp [Framebuffer.pixel, Framebuffer.clear, Vector.get_eq_getElem]

/-- Two framebuffers with the same pixels are the same. -/
theorem Framebuffer.ext {f g : Framebuffer} (h : ∀ r c, Framebuffer.pixel f r c = Framebuffer.pixel g r c) :
    f = g :=
  Vector.ext fun r hr => Vector.ext fun c hc => h ⟨r, hr⟩ ⟨c, hc⟩

/-- Drawing a list of distinct pixels toggles exactly those, and hits exactly when one of them was lit. -/
theorem foldl_drawCell {cells : List (Fin fbRows × Fin fbCols)} (hn : cells.Nodup) (fb : Framebuffer) (hit : Bool) :
    (∀ r c, Framebuffer.pixel (cells.foldl drawCell (fb, hit)).1 r c =
      (Framebuffer.pixel fb r c ^^ decide ((r, c) ∈ cells))) ∧
    ((cells.foldl drawCell (fb, hit)).2 = true ↔
      hit = true ∨ ∃ p ∈ cells, Framebuffer.pixel fb p.1 p.2 = true) := by
  induction cells generalizing fb hit with
  | nil => simp
  | cons p cells ih =>
    obtain ⟨hp, hn⟩ := List.nodup_cons.1 hn
    obtain ⟨ih1, ih2⟩ := ih hn (Framebuffer.toggle fb p.1 p.2) (hit || Framebuffer.pixel fb p.1 p.2)
    constructor
    · intro r c
      refine (ih1 r c).trans ?_
      rw [Framebuffer.pixel_toggle]
      by_cases h : (r, c) = p
      · subst h; simp [hp]
      · have h' : (r, c) ≠ (p.1, p.2) := h
        simp [h']
    · refine ih2.trans ?_
      constructor
      · rintro (h | ⟨q, hq, hl⟩)
        · simp only [Bool.or_eq_true] at h
          rcases h with h | h
          · exact .inl h
          · exact .inr ⟨p, by simp, h⟩
        · rw [Framebuffer.pixel_toggle] at hl
          have hqp : (q.1, q.2) ≠ (p.1, p.2) := fun e => hp (by rwa [show q = p from e] at hq)
          rw [if_neg hqp] at hl
          exact .inr ⟨q, by simp [hq], hl⟩
      · rintro (h | ⟨q, hq, hl⟩)
        · exact .inl (by simp [h])
        · rcases List.mem_cons.1 hq with rfl | hq
          · exact .inl (by simp [hl])
          · refine .inr ⟨q, hq, ?_⟩
            have hqp : (q.1, q.2) ≠ (p.1, p.2) := fun e => hp (by rwa [show q = p from e] at hq)
            rw [Framebuffer.pixel_toggle, if_neg hqp]
            exact hl

theorem mem_spriteRowCells {row0 col0 r : Nat} {b : Byte} {p : Fin fbRows × Fin fbCols} :
    p ∈ spriteRowCells row0 col0 r b ↔ ∃ c, c < 8 ∧ spriteBit b c = true ∧ spriteCell row0 col0 r c = p := by
  simp [spriteRowCells, and_assoc]

/-- A pixel is one of a sprite's cells exactly when some set bit names it. -/
theorem mem_spriteCellsFrom {row0 col0 r : Nat} {bs : List Byte} {p : Fin fbRows × Fin fbCols} :
    p ∈ spriteCellsFrom row0 col0 r bs ↔
      ∃ k, ∃ h : k < bs.length, ∃ c, c < 8 ∧ spriteBit bs[k] c = true ∧ spriteCell row0 col0 (r + k) c = p := by
  induction bs generalizing r with
  | nil => simp [spriteCellsFrom]
  | cons b bs ih =>
    rw [spriteCellsFrom, List.mem_append, mem_spriteRowCells, ih]
    constructor
    · rintro (⟨c, hc, hb, hp⟩ | ⟨k, hk, c, hc, hb, hp⟩)
      · exact ⟨0, by simp, c, hc, hb, hp⟩
      · refine ⟨k + 1, by simpa using hk, c, hc, by simpa using hb, ?_⟩
        rwa [show r + (k + 1) = r + 1 + k by omega]
    · rintro ⟨k, hk, c, hc, hb, hp⟩
      cases k with
      | zero => exact .inl ⟨c, hc, hb, hp⟩
      | succ k =>
        refine .inr ⟨k, by simpa using hk, c, hc, by simpa using hb, ?_⟩
        rwa [show r + 1 + k = r + (k + 1) by omega]

/-- Offsets inside a sprite of at most 32 rows and 8 columns name distinct pixels (40_display.md R81). -/
theorem spriteCell_inj {row0 col0 r r' c c' : Nat} (hr : r < 32) (hr' : r' < 32) (hc : c < 8) (hc' : c' < 8)
    (h : spriteCell row0 col0 r c = spriteCell row0 col0 r' c') : r = r' ∧ c = c' := by
  simp only [spriteCell, Prod.mk.injEq, Fin.mk.injEq, fbRows, fbCols] at h
  omega

/-- "One DRW never touches the same pixel twice" (40_display.md R81). -/
theorem nodup_spriteCellsFrom {row0 col0 r : Nat} {bs : List Byte} (h : r + bs.length ≤ 32) :
    (spriteCellsFrom row0 col0 r bs).Nodup := by
  induction bs generalizing r with
  | nil => simp [spriteCellsFrom]
  | cons b bs ih =>
    simp only [List.length_cons] at h
    refine List.nodup_append.2 ⟨?_, ih (by omega), ?_⟩
    · refine List.Nodup.map_on ?_ (List.nodup_range.filter _)
      intro c hc c' hc' he
      have hc := List.mem_range.1 (List.mem_filter.1 hc).1
      have hc' := List.mem_range.1 (List.mem_filter.1 hc').1
      exact (spriteCell_inj (by omega) (by omega) hc hc' he).2
    · rintro p hp q hq rfl
      obtain ⟨c, hc, -, rfl⟩ := mem_spriteRowCells.1 hp
      obtain ⟨k, hk, c', hc', -, he⟩ := mem_spriteCellsFrom.1 hq
      have := (spriteCell_inj (by omega) (by omega) hc' hc he).1
      omega

end Sys2Proof.Machine
end

