-- ==== Sys2Proof/Laws/Encoding.lean ====
section
/-! SUPPORT. The fields of the four shapes of word the encoder builds, and a word from its fields. -/

namespace Sys2Proof

/-- Reading a slice that lies in the high part of an append. -/
theorem extractLsb'_append_high {n m : Nat} (a : BitVec n) (b : BitVec m) (k len : Nat) (h : m ≤ k) :
    (a ++ b).extractLsb' k len = a.extractLsb' (k - m) len := by
  ext i hi
  have h1 : ¬ k + i < m := by omega
  have e : k + i - m = k - m + i := by omega
  simp [BitVec.getLsbD_append, h1, e]

/-- Reading a slice that lies in the low part of an append. -/
theorem extractLsb'_append_low {n m : Nat} (a : BitVec n) (b : BitVec m) (k len : Nat) (h : k + len ≤ m) :
    (a ++ b).extractLsb' k len = b.extractLsb' k len := by
  ext i hi
  have h1 : k + i < m := by omega
  simp [BitVec.getLsbD_append, h1]

theorem extractLsb'_whole {n : Nat} (a : BitVec n) : a.extractLsb' 0 n = a := by
  ext i hi
  simp

@[simp] theorem toFin_regBits (x : Reg) : (regBits x).toFin = x := rfl

/-! ### cat, nnn -/

@[simp] theorem fieldCat_wordNnn (c : BitVec 4) (nnn : BitVec 12) : fieldCat (wordNnn c nnn) = c := by
  unfold fieldCat wordNnn
  rw [extractLsb'_append_high _ _ _ _ (by decide)]
  exact extractLsb'_whole c

@[simp] theorem fieldNnn_wordNnn (c : BitVec 4) (nnn : BitVec 12) : fieldNnn (wordNnn c nnn) = nnn := by
  unfold fieldNnn wordNnn
  rw [extractLsb'_append_low _ _ _ _ (by decide)]
  exact extractLsb'_whole nnn

@[simp] theorem fieldN_wordNnn (c : BitVec 4) (nnn : BitVec 12) :
    fieldN (wordNnn c nnn) = nnn.extractLsb' 0 4 := by
  unfold fieldN wordNnn
  rw [extractLsb'_append_low _ _ _ _ (by decide)]

/-! ### cat, x, kk -/

@[simp] theorem fieldCat_wordXkk (c : BitVec 4) (x : Reg) (kk : Byte) : fieldCat (wordXkk c x kk) = c := by
  unfold fieldCat wordXkk
  rw [extractLsb'_append_high _ _ _ _ (by decide)]
  exact extractLsb'_whole c

@[simp] theorem fieldX_wordXkk (c : BitVec 4) (x : Reg) (kk : Byte) : fieldX (wordXkk c x kk) = x := by
  unfold fieldX wordXkk
  rw [extractLsb'_append_low _ _ _ _ (by decide), extractLsb'_append_high _ _ _ _ (by decide)]
  exact congrArg BitVec.toFin (extractLsb'_whole (regBits x))

@[simp] theorem fieldKk_wordXkk (c : BitVec 4) (x : Reg) (kk : Byte) : fieldKk (wordXkk c x kk) = kk := by
  unfold fieldKk wordXkk
  rw [extractLsb'_append_low _ _ _ _ (by decide), extractLsb'_append_low _ _ _ _ (by decide)]
  exact extractLsb'_whole kk

/-! ### cat, x, y, n -/

@[simp] theorem fieldCat_wordXyn (c : BitVec 4) (x : Reg) (y n : BitVec 4) : fieldCat (wordXyn c x y n) = c := by
  unfold fieldCat wordXyn
  rw [extractLsb'_append_high _ _ _ _ (by decide)]
  exact extractLsb'_whole c

@[simp] theorem fieldX_wordXyn (c : BitVec 4) (x : Reg) (y n : BitVec 4) : fieldX (wordXyn c x y n) = x := by
  unfold fieldX wordXyn
  rw [extractLsb'_append_low _ _ _ _ (by decide), extractLsb'_append_high _ _ _ _ (by decide)]
  exact congrArg BitVec.toFin (extractLsb'_whole (regBits x))

@[simp] theorem fieldMid_wordXyn (c : BitVec 4) (x : Reg) (y n : BitVec 4) : fieldMid (wordXyn c x y n) = y := by
  unfold fieldMid wordXyn
  rw [extractLsb'_append_low _ _ _ _ (by decide), extractLsb'_append_low _ _ _ _ (by decide),
    extractLsb'_append_high _ _ _ _ (by decide)]
  exact extractLsb'_whole y

@[simp] theorem fieldY_wordXyn (c : BitVec 4) (x : Reg) (y n : BitVec 4) :
    fieldY (wordXyn c x y n) = y.toFin := by
  rw [fieldY, fieldMid_wordXyn]

@[simp] theorem fieldN_wordXyn (c : BitVec 4) (x : Reg) (y n : BitVec 4) : fieldN (wordXyn c x y n) = n := by
  unfold fieldN wordXyn
  rw [extractLsb'_append_low _ _ _ _ (by decide), extractLsb'_append_low _ _ _ _ (by decide),
    extractLsb'_append_low _ _ _ _ (by decide)]
  exact extractLsb'_whole n

/-! ### cat, pad, n -/

@[simp] theorem fieldCat_wordPad (c : BitVec 4) (pad : Byte) (n : BitVec 4) : fieldCat (wordPad c pad n) = c := by
  unfold fieldCat wordPad
  rw [extractLsb'_append_high _ _ _ _ (by decide)]
  exact extractLsb'_whole c

@[simp] theorem fieldPad_wordPad (c : BitVec 4) (pad : Byte) (n : BitVec 4) :
    fieldPad (wordPad c pad n) = pad := by
  unfold fieldPad wordPad
  rw [extractLsb'_append_low _ _ _ _ (by decide), extractLsb'_append_high _ _ _ _ (by decide)]
  exact extractLsb'_whole pad

@[simp] theorem fieldN_wordPad (c : BitVec 4) (pad : Byte) (n : BitVec 4) : fieldN (wordPad c pad n) = n := by
  unfold fieldN wordPad
  rw [extractLsb'_append_low _ _ _ _ (by decide), extractLsb'_append_low _ _ _ _ (by decide)]
  exact extractLsb'_whole n

/-! ### A word from its fields -/

/-- Two neighbouring slices make one. -/
theorem append_slices {k : Nat} (w : BitVec k) (o n m : Nat) :
    w.extractLsb' (o + m) n ++ w.extractLsb' o m = w.extractLsb' o (n + m) := by
  ext i hi
  by_cases h : i < m
  · simp [BitVec.getElem_append, h]
  · have e : o + m + (i - m) = o + i := by omega
    simp [BitVec.getElem_append, h, e]

theorem word_eq_nnn (w : Word) : w = wordNnn (fieldCat w) (fieldNnn w) :=
  ((append_slices w 0 4 12).trans (extractLsb'_whole w)).symm

theorem nnn_eq_xkk (w : Word) : fieldNnn w = regBits (fieldX w) ++ fieldKk w :=
  (append_slices w 0 4 8).symm

theorem kk_eq_yn (w : Word) : fieldKk w = fieldMid w ++ fieldN w :=
  (append_slices w 0 4 4).symm

theorem nnn_eq_pad (w : Word) : fieldNnn w = fieldPad w ++ fieldN w :=
  (append_slices w 0 8 4).symm

theorem regBits_fieldY (w : Word) : regBits (fieldY w) = fieldMid w := rfl

theorem word_eq_xkk (w : Word) : w = wordXkk (fieldCat w) (fieldX w) (fieldKk w) :=
  (word_eq_nnn w).trans (by rw [nnn_eq_xkk w]; rfl)

theorem word_eq_xyn (w : Word) : w = wordXyn (fieldCat w) (fieldX w) (fieldMid w) (fieldN w) :=
  (word_eq_xkk w).trans (by rw [kk_eq_yn w]; rfl)

theorem word_eq_pad (w : Word) : w = wordPad (fieldCat w) (fieldPad w) (fieldN w) :=
  (word_eq_nnn w).trans (by rw [nnn_eq_pad w]; rfl)

/-- Two bytes that hold a word give it back (20_memory.md R43). -/
@[simp] theorem wordOfBytes_hi_lo (w : Word) : wordOfBytes (wordHi w) (wordLo w) = w :=
  (append_slices w 0 8 8).trans (extractLsb'_whole w)

end Sys2Proof
end

