-- ==== Sys2Proof/Laws/Operands.lean ====
section
/-! SUPPORT. What each operand operation answers: the stack, the register block, key lines, skips and flags. -/

namespace Sys2Proof.Machine

/-! ## The return-address stack -/

/-- A push below 16 entries writes the free slot and counts it, and nothing else (41_control_flow.md R88). -/
theorem State.push_of_lt {s : State} (h : s.sp.val < 16) (w : Word) :
    s.push w = some { s with stack := s.stack.set s.sp.val w, sp := ⟨s.sp.val + 1, Nat.succ_lt_succ h⟩ } := by
  unfold State.push
  rw [dif_pos h]

theorem State.push_of_full {s : State} (h : s.sp.val = 16) (w : Word) : s.push w = none := by
  unfold State.push
  rw [dif_neg (by simp only [stackDepth]; omega)]

/-- A push answers a state only below 16 entries. -/
theorem State.push_eq_some {s t : State} {w : Word} (h : s.push w = some t) :
    ∃ hs : s.sp.val < 16,
      t = { s with stack := s.stack.set s.sp.val w, sp := ⟨s.sp.val + 1, Nat.succ_lt_succ hs⟩ } := by
  by_cases hs : s.sp.val < 16
  · rw [State.push_of_lt hs] at h
    exact ⟨hs, (Option.some.inj h).symm⟩
  · rw [State.push_of_full (by have := s.sp.isLt; simp only [stackDepth] at this; omega)] at h
    cases h

/-- A pop of a stack that holds an entry gives the top one and uncounts it; the slot keeps its value
(41_control_flow.md R86). -/
theorem State.pop_of_pos {s : State} {k : Nat} (hk : k < 16) (h : s.sp.val = k + 1) :
    s.pop = some (s.stack.get ⟨k, hk⟩, { s with sp := ⟨k, Nat.lt_succ_of_lt hk⟩ }) := by
  unfold State.pop
  rw [dif_pos (by omega)]
  have e : s.sp.val - 1 = k := by omega
  simp [e, Vector.get_eq_getElem]

theorem State.pop_of_zero {s : State} (h : s.sp.val = 0) : s.pop = none := by
  unfold State.pop
  rw [dif_neg (by omega)]

/-- A pop answers only when the stack holds an entry. -/
theorem State.pop_eq_some {s t : State} {w : Word} (h : s.pop = some (w, t)) :
    ∃ k, ∃ hk : k < 16, s.sp.val = k + 1 ∧ w = s.stack.get ⟨k, hk⟩ ∧
      t = { s with sp := ⟨k, Nat.lt_succ_of_lt hk⟩ } := by
  by_cases hs : s.sp.val = 0
  · rw [State.pop_of_zero hs] at h; cases h
  · have hlt := s.sp.isLt
    simp only [stackDepth] at hlt
    have hk : s.sp.val - 1 < 16 := by omega
    rw [State.pop_of_pos hk (by omega)] at h
    cases h
    exact ⟨s.sp.val - 1, hk, by omega, rfl, rfl⟩

/-! ## The register block V0..Vx -/

@[simp] theorem State.length_regBlock (s : State) (x : Reg) : (s.regBlock x).length = x.val + 1 := by
  simp [State.regBlock]

@[simp] theorem State.getElem_regBlock (s : State) (x : Reg) (k : Nat) (h : k < (s.regBlock x).length) :
    (s.regBlock x)[k] = s.reg ⟨k, by simp at h; omega⟩ := by
  simp [State.regBlock, State.reg, Vector.get_eq_getElem]

theorem getElem_loadRegsFrom (v : Vector Byte 16) (k : Nat) (bs : List Byte) (j : Nat) (hj : j < 16) :
    (loadRegsFrom v k bs)[j] = if h : k ≤ j ∧ j - k < bs.length then bs[j - k]'h.2 else v[j] := by
  induction bs generalizing v k with
  | nil => simp [loadRegsFrom]
  | cons b bs ih =>
    rw [loadRegsFrom, ih]
    by_cases hk : j = k
    · subst hk; simp
    · have hk' : ¬ k = j := fun e => hk e.symm
      by_cases h : k + 1 ≤ j ∧ j - (k + 1) < bs.length
      · have h' : k ≤ j ∧ j - k < (b :: bs).length := by
          simp only [List.length_cons]; omega
        have e : j - k = j - (k + 1) + 1 := by omega
        rw [dif_pos h, dif_pos h']
        simp [e]
      · have h' : ¬ (k ≤ j ∧ j - k < (b :: bs).length) := by
          simp only [List.length_cons]; omega
        rw [dif_neg h, dif_neg h']
        simp [hk']

/-- Loading a block writes V0, V1, … from it and leaves every other register (43_index_memory.md R123). -/
theorem State.reg_setRegBlock (s : State) (bs : List Byte) (k : Reg) :
    (s.setRegBlock bs).reg k = if h : k.val < bs.length then bs[k.val] else s.reg k := by
  have := getElem_loadRegsFrom s.v 0 bs k.val k.isLt
  simp only [Nat.zero_le, true_and, Nat.sub_zero] at this
  simpa [State.reg, State.setRegBlock, Vector.get_eq_getElem] using this

@[simp] theorem length_bcdDigits (b : Byte) : (bcdDigits b).length = 3 := rfl

/-! ## Key lines -/

theorem keyIndex_of_lt {b : Byte} (h : b.toNat < 16) : keyIndex b = some ⟨b.toNat, h⟩ := by
  unfold keyIndex
  rw [dif_pos h]

theorem keyIndex_of_ge {b : Byte} (h : 15 < b.toNat) : keyIndex b = none := by
  unfold keyIndex
  rw [dif_neg (by omega)]

/-- The scan finds a pressed line below which none is pressed (44_keypad_timers.md R130). -/
theorem State.firstPressed_eq_some {s : State} {k : KeyIx} (h : s.firstPressed = some k) :
    s.keyPressed k = true ∧ ∀ j, j < k → s.keyPressed j = false := by
  unfold State.firstPressed at h
  refine ⟨by simpa using List.find?_some h, fun j hj => ?_⟩
  obtain ⟨-, as, bs, hab, has⟩ := List.find?_eq_some_iff_append.1 h
  have hsorted : (as ++ k :: bs).Pairwise (· < ·) := hab ▸ List.pairwise_lt_finRange 16
  have hmem : j ∈ as ++ k :: bs := hab ▸ List.mem_finRange j
  rcases List.mem_append.1 hmem with hj' | hj'
  · simpa using has j hj'
  · have hk := (List.pairwise_append.1 hsorted).2.1
    rcases List.mem_cons.1 hj' with rfl | hj'
    · exact absurd hj (lt_irrefl _)
    · exact absurd (lt_trans hj ((List.pairwise_cons.1 hk).1 j hj')) (lt_irrefl _)

/-- The scan finds nothing exactly when no line is pressed. -/
theorem State.firstPressed_eq_none {s : State} : s.firstPressed = none ↔ ∀ j, s.keyPressed j = false := by
  simp [State.firstPressed]

/-! ## Flags -/

@[simp] theorem flagByte_true : flagByte true = 1 := rfl
@[simp] theorem flagByte_false : flagByte false = 0 := rfl

theorem flagByte_eq_one {b : Bool} : flagByte b = 1 ↔ b = true := by cases b <;> decide
theorem flagByte_eq_zero {b : Bool} : flagByte b = 0 ↔ b = false := by cases b <;> decide

/-- A carry flag is 1 exactly when the exact sum exceeds 255 (42_alu.md R106). -/
theorem carryFlag_eq (n : Nat) : carryFlag n = if 255 < n then 1 else 0 := by
  by_cases h : 255 < n <;> simp [carryFlag, h]

/-- A comparison flag is 1 exactly when strictly greater (42_alu.md R107). -/
theorem greaterFlag_eq (a b : Byte) : greaterFlag a b = if b.toNat < a.toNat then 1 else 0 := by
  by_cases h : b.toNat < a.toNat <;> simp [greaterFlag, h]

/-- The bit SHR shifts out is the value modulo 2 (42_alu.md R109). -/
theorem toNat_lowBitFlag (a : Byte) : (lowBitFlag a).toNat = a.toNat % 2 := by
  simp [lowBitFlag, Nat.and_one_is_mod]

/-- The bit SHL shifts out is the value divided by 128 (42_alu.md R110). -/
theorem toNat_highBitFlag (a : Byte) : (highBitFlag a).toNat = a.toNat / 128 := by
  have := a.isLt
  simp only [highBitFlag, BitVec.toNat_and, BitVec.toNat_ushiftRight, Nat.shiftRight_eq_div_pow]
  show a.toNat / 2 ^ 7 &&& 1 = _
  rw [Nat.and_one_is_mod]
  omega

/-! ## Addresses -/

@[simp] theorem toNat_zext16 (nnn : BitVec 12) : (zext16 nnn).toNat = nnn.toNat := by
  have := nnn.isLt
  simp only [zext16, BitVec.toNat_setWidth]
  omega

@[simp] theorem toNat_byteToWord (b : Byte) : (byteToWord b).toNat = b.toNat := by
  have := b.isLt
  simp only [byteToWord, BitVec.toNat_setWidth]
  omega

/-- V0 + nnn does not wrap (41_control_flow.md R95). -/
theorem toNat_offsetTarget (s : State) (nnn : BitVec 12) :
    (offsetTarget s nnn).toNat = (s.reg Reg.V0).toNat + nnn.toNat := by
  have h1 := nnn.isLt
  have h2 := (s.reg Reg.V0).isLt
  simp only [offsetTarget, BitVec.toNat_add, toNat_byteToWord, toNat_zext16]
  omega

/-- The glyph address does not wrap (43_index_memory.md R120). -/
theorem toNat_glyphAddress (b : Byte) : (glyphAddress b).toNat = 0x50 + 5 * b.toNat := by
  have := b.isLt
  simp only [glyphAddress, fontBase, BitVec.toNat_ofNat]
  omega

end Sys2Proof.Machine
end

