-- ==== Sys2Proof/Laws/Frame.lean ====
section
/-! SUPPORT. The frame of each shared update, as `ChangesOnly`, and how frames combine. -/

namespace Sys2Proof.Machine

theorem ChangesOnly.refl (f : Footprint) (s : State) : ChangesOnly f s s :=
  ⟨fun _ _ => rfl, fun _ => rfl, fun _ => rfl, fun _ => ⟨rfl, rfl⟩, fun _ => rfl, fun _ => rfl, fun _ _ => rfl,
    fun _ _ _ => rfl, fun _ => rfl, fun _ => ⟨rfl, rfl, rfl, rfl⟩, rfl⟩

theorem ChangesOnly.trans {f : Footprint} {s t u : State} (h : ChangesOnly f s t) (g : ChangesOnly f t u) :
    ChangesOnly f s u where
  regs k hk := (g.regs k hk).trans (h.regs k hk)
  index e := (g.index e).trans (h.index e)
  pc e := (g.pc e).trans (h.pc e)
  stack e := ⟨(g.stack e).1.trans (h.stack e).1, (g.stack e).2.trans (h.stack e).2⟩
  delay e := (g.delay e).trans (h.delay e)
  sound e := (g.sound e).trans (h.sound e)
  bytes a ha := (g.bytes a ha).trans (h.bytes a ha)
  display e r c := (g.display e r c).trans (h.display e r c)
  latch e := (g.latch e).trans (h.latch e)
  inputs e := ⟨(g.inputs e).1.trans (h.inputs e).1, (g.inputs e).2.1.trans (h.inputs e).2.1,
    (g.inputs e).2.2.1.trans (h.inputs e).2.2.1, (g.inputs e).2.2.2.trans (h.inputs e).2.2.2⟩
  params := g.params.trans h.params

/-- Writing a register changes only registers of a footprint that names it. -/
theorem changesOnly_setReg {f : Footprint} {x : Reg} (hx : x ∈ f.regs) (s : State) (b : Byte) :
    ChangesOnly f s (s.setReg x b) :=
  { ChangesOnly.refl f s with
    regs := fun k hk => by
      have : k ≠ x := fun e => hk (e ▸ hx)
      simp [this] }

theorem changesOnly_setFlag {f : Footprint} (hf : Reg.VF ∈ f.regs) (s : State) (b : Byte) :
    ChangesOnly f s (s.setFlag b) :=
  changesOnly_setReg hf s b

theorem changesOnly_setRegBlock {f : Footprint} {bs : List Byte}
    (hf : ∀ k : Reg, k.val < bs.length → k ∈ f.regs) (s : State) : ChangesOnly f s (s.setRegBlock bs) :=
  { ChangesOnly.refl f s with
    regs := fun k hk => by
      rw [State.reg_setRegBlock, dif_neg fun h => hk (hf k h)] }

theorem changesOnly_setI {f : Footprint} (hf : f.index = true) (s : State) (w : Word) : ChangesOnly f s (s.setI w) :=
  { ChangesOnly.refl f s with index := fun h => by simp [hf] at h }

theorem changesOnly_setPc {f : Footprint} (hf : f.pc = true) (s : State) (w : Word) : ChangesOnly f s (s.setPc w) :=
  { ChangesOnly.refl f s with pc := fun h => by simp [hf] at h }

theorem changesOnly_skipIf {f : Footprint} (hf : f.pc = true) (s : State) (c : Bool) :
    ChangesOnly f s (s.skipIf c) := by
  cases c
  · exact ChangesOnly.refl f s
  · exact changesOnly_setPc hf s _

theorem changesOnly_setDt {f : Footprint} (hf : f.delay = true) (s : State) (b : Byte) :
    ChangesOnly f s (s.setDt b) :=
  { ChangesOnly.refl f s with delay := fun h => by simp [hf] at h }

theorem changesOnly_setSt {f : Footprint} (hf : f.sound = true) (s : State) (b : Byte) :
    ChangesOnly f s (s.setSt b) :=
  { ChangesOnly.refl f s with sound := fun h => by simp [hf] at h }

theorem changesOnly_stack {f : Footprint} (hf : f.stack = true) (s : State) (stack : Vector Word stackDepth)
    (sp : Fin (stackDepth + 1)) : ChangesOnly f s { s with stack := stack, sp := sp } :=
  { ChangesOnly.refl f s with stack := fun h => by simp [hf] at h }

theorem changesOnly_fb {f : Footprint} (hf : f.display = true) (s : State) (fb : Framebuffer) :
    ChangesOnly f s { s with fb := fb } :=
  { ChangesOnly.refl f s with display := fun h => by simp [hf] at h }

theorem changesOnly_latch {f : Footprint} (hf : f.latch = true) (s : State) (r : FaultRecord) :
    ChangesOnly f s (s.latch r) :=
  { ChangesOnly.refl f s with latch := fun h => by simp [hf] at h }

end Sys2Proof.Machine
end

