-- ==== Sys2Proof/Laws/Memory.lean ====
section
/-! SUPPORT. The laws of memory: reads after writes, which hold of every list of cells, and the canonical form,
which every operation keeps. -/

namespace Sys2Proof.Machine

/-! ## Reads -/

@[simp] theorem Memory.read_nil (a : Nat) : Memory.read [] a = Memory.unlisted a := rfl

theorem Memory.read_cons (c : Host.Cell) (m : Memory) (a : Nat) :
    Memory.read (c :: m) a = if c.1 = a then c.2 else Memory.read m a := rfl

/-- An address without a cell reads as unlisted. -/
theorem Memory.read_of_not_mem {m : Memory} {a : Nat} (h : ∀ c ∈ m, c.1 ≠ a) : m.read a = Memory.unlisted a := by
  induction m with
  | nil => rfl
  | cons c m ih =>
    have hc : c.1 ≠ a := h c (by simp)
    rw [Memory.read_cons, if_neg hc, ih fun d hd => h d (by simp [hd])]

theorem Memory.mem_removeCell {m : Memory} {a : Nat} {c : Host.Cell} : c ∈ m.removeCell a ↔ c ∈ m ∧ c.1 ≠ a := by
  simp [Memory.removeCell]

theorem Memory.read_removeCell (m : Memory) (a k : Nat) :
    (m.removeCell a).read k = if k = a then Memory.unlisted a else m.read k := by
  by_cases hk : k = a
  · subst hk
    rw [if_pos rfl, Memory.read_of_not_mem fun c hc => (Memory.mem_removeCell.1 hc).2]
  · rw [if_neg hk]
    induction m with
    | nil => rfl
    | cons c m ih =>
      by_cases hc : c.1 = a
      · have : c.1 ≠ k := fun e => hk (e ▸ hc)
        rw [Memory.read_cons, if_neg this, ← ih]
        simp [Memory.removeCell, hc]
      · have he : Memory.removeCell (c :: m) a = c :: Memory.removeCell m a := by simp [Memory.removeCell, hc]
        rw [he, Memory.read_cons, Memory.read_cons, ih]

theorem Memory.mem_insertCell {m : Memory} {a : Nat} {b : Byte} {c : Host.Cell} :
    c ∈ m.insertCell a b ↔ c = (a, b) ∨ c ∈ m := by
  induction m with
  | nil => simp [Memory.insertCell]
  | cons d m ih =>
    unfold Memory.insertCell
    split
    · simp
    · simp only [List.mem_cons, ih]; tauto

theorem Memory.read_insertCell {m : Memory} {a : Nat} (b : Byte) (h : ∀ c ∈ m, c.1 ≠ a) (k : Nat) :
    (m.insertCell a b).read k = if k = a then b else m.read k := by
  induction m with
  | nil => simp [Memory.insertCell, Memory.read_cons, eq_comm]
  | cons c m ih =>
    have hc : c.1 ≠ a := h c (by simp)
    have ih := ih fun d hd => h d (by simp [hd])
    unfold Memory.insertCell
    split
    · simp [Memory.read_cons, eq_comm]
    · rw [Memory.read_cons, ih, Memory.read_cons]
      by_cases hk : k = a
      · subst hk; simp [hc]
      · simp [hk]

/-- A read after a write gives the value written; every other address reads as before. -/
theorem Memory.read_write (m : Memory) (a k : Nat) (b : Byte) :
    (m.write a b).read k = if k = a then b else m.read k := by
  unfold Memory.write
  split
  · rename_i hb
    rw [Memory.read_removeCell]
    split <;> simp_all
  · rw [Memory.read_insertCell b (fun c hc => (Memory.mem_removeCell.1 hc).2), Memory.read_removeCell]
    split <;> simp_all

/-- A read after a block write: the block's byte inside the block, as before outside it. -/
theorem Memory.read_writeBytes (m : Memory) (a k : Nat) (bs : List Byte) :
    (m.writeBytes a bs).read k =
      if h : a ≤ k ∧ k - a < bs.length then bs[k - a]'h.2 else m.read k := by
  induction bs generalizing m a with
  | nil => simp [Memory.writeBytes]
  | cons b bs ih =>
    rw [Memory.writeBytes, ih, Memory.read_write]
    by_cases hk : k = a
    · subst hk
      simp
    · by_cases h : a + 1 ≤ k ∧ k - (a + 1) < bs.length
      · have h' : a ≤ k ∧ k - a < (b :: bs).length := by
          simp only [List.length_cons]; omega
        have e : k - a = (k - (a + 1)) + 1 := by omega
        rw [dif_pos h, dif_pos h']
        simp [e]
      · have h' : ¬ (a ≤ k ∧ k - a < (b :: bs).length) := by
          simp only [List.length_cons]; omega
        rw [dif_neg h, dif_neg h', if_neg hk]

/-- Outside the block a block write changes nothing. -/
theorem Memory.read_writeBytes_outside {m : Memory} {a k : Nat} {bs : List Byte}
    (h : k < a ∨ a + bs.length ≤ k) : (m.writeBytes a bs).read k = m.read k := by
  rw [Memory.read_writeBytes, dif_neg (by omega)]

/-- Inside the block a block write leaves the block's bytes. -/
theorem Memory.read_writeBytes_inside {m : Memory} {a k : Nat} {bs : List Byte} (h : k < bs.length) :
    (m.writeBytes a bs).read (a + k) = bs[k] := by
  have h' : a ≤ a + k ∧ a + k - a < bs.length := by omega
  have e : a + k - a = k := by omega
  simp [Memory.read_writeBytes, h, e]

@[simp] theorem Memory.length_readBytes (m : Memory) (a n : Nat) : (m.readBytes a n).length = n := by
  simp [Memory.readBytes]

@[simp] theorem Memory.getElem_readBytes (m : Memory) (a n k : Nat) (h : k < (m.readBytes a n).length) :
    (m.readBytes a n)[k] = m.read (a + k) := by
  simp [Memory.readBytes]

/-! ## The canonical form -/

theorem Memory.wf_nil : Memory.wf [] := by simp [Memory.wf]

theorem Memory.wf_removeCell {m : Memory} (a : Nat) (h : m.wf) : (m.removeCell a).wf :=
  ⟨h.1.filter _, fun c hc => h.2 c (Memory.mem_removeCell.1 hc).1⟩

theorem Memory.pairwise_insertCell {m : Memory} {a : Nat} (b : Byte)
    (h : m.Pairwise fun c d => c.1 < d.1) (hne : ∀ c ∈ m, c.1 ≠ a) :
    (m.insertCell a b).Pairwise fun c d => c.1 < d.1 := by
  induction m with
  | nil => simp [Memory.insertCell]
  | cons c m ih =>
    have hcm := List.pairwise_cons.1 h
    have hc : c.1 ≠ a := hne c (by simp)
    unfold Memory.insertCell
    split
    · rename_i hlt
      refine List.pairwise_cons.2 ⟨fun d hd => ?_, h⟩
      rcases List.mem_cons.1 hd with rfl | hd
      · exact hlt
      · exact Nat.lt_trans hlt (hcm.1 d hd)
    · rename_i hlt
      refine List.pairwise_cons.2 ⟨fun d hd => ?_, ih hcm.2 fun d hd => hne d (by simp [hd])⟩
      rcases Memory.mem_insertCell.1 hd with rfl | hd
      · show c.1 < a; omega
      · exact hcm.1 d hd

/-- A write inside the address space keeps the canonical form. -/
theorem Memory.wf_write {m : Memory} {a : Nat} (b : Byte) (ha : a < memSize) (h : m.wf) : (m.write a b).wf := by
  unfold Memory.write
  split
  · exact Memory.wf_removeCell a h
  · rename_i hb
    have he := Memory.wf_removeCell a h
    refine ⟨Memory.pairwise_insertCell b he.1 fun c hc => (Memory.mem_removeCell.1 hc).2, fun c hc => ?_⟩
    rcases Memory.mem_insertCell.1 hc with rfl | hc
    · exact ⟨ha, hb⟩
    · exact he.2 c hc

/-- A block write inside the address space keeps the canonical form. -/
theorem Memory.wf_writeBytes {m : Memory} {a : Nat} {bs : List Byte} (ha : a + bs.length ≤ memSize) (h : m.wf) :
    (m.writeBytes a bs).wf := by
  induction bs generalizing m a with
  | nil => exact h
  | cons b bs ih =>
    simp only [List.length_cons] at ha
    exact ih (by omega) (Memory.wf_write b (by omega) h)

/-- Two canonical memories that read the same inside the address space are the same list. -/
theorem Memory.eq_of_read_eq {m n : Memory} (hm : m.wf) (hn : n.wf) (h : ∀ a, m.read a = n.read a) : m = n := by
  induction m generalizing n with
  | nil =>
    cases n with
    | nil => rfl
    | cons d n =>
      exact absurd (by simpa [Memory.read_cons] using (h d.1).symm) (hn.2 d (by simp)).2
  | cons c m ih =>
    cases n with
    | nil => exact absurd (by simpa [Memory.read_cons] using h c.1) (hm.2 c (by simp)).2
    | cons d n =>
      have hcm := List.pairwise_cons.1 hm.1
      have hdn := List.pairwise_cons.1 hn.1
      have hrest : ∀ e ∈ m, e.1 ≠ c.1 := fun e he => Nat.ne_of_gt (hcm.1 e he)
      have hrest' : ∀ e ∈ n, e.1 ≠ d.1 := fun e he => Nat.ne_of_gt (hdn.1 e he)
      have key : c.1 = d.1 := by
        rcases Nat.lt_trichotomy c.1 d.1 with hlt | heq | hgt
        · have hc := h c.1
          rw [Memory.read_cons, if_pos rfl, Memory.read_of_not_mem] at hc
          · exact absurd hc (hm.2 c (by simp)).2
          · intro e he
            rcases List.mem_cons.1 he with rfl | he
            · omega
            · have := hdn.1 e he; omega
        · exact heq
        · have hd := h d.1
          rw [Memory.read_cons (m := n), if_pos rfl, Memory.read_of_not_mem] at hd
          · exact absurd hd.symm (hn.2 d (by simp)).2
          · intro e he
            rcases List.mem_cons.1 he with rfl | he
            · omega
            · have := hcm.1 e he; omega
      have hval : c.2 = d.2 := by
        have := h c.1
        rwa [Memory.read_cons, Memory.read_cons, if_pos rfl, if_pos key.symm] at this
      have hcd : c = d := Prod.ext key hval
      subst hcd
      rw [ih ⟨hcm.2, fun e he => hm.2 e (by simp [he])⟩ ⟨hdn.2, fun e he => hn.2 e (by simp [he])⟩]
      intro a
      by_cases ha : c.1 = a
      · subst ha
        rw [Memory.read_of_not_mem hrest, Memory.read_of_not_mem hrest']
      · have := h a
        rwa [Memory.read_cons, Memory.read_cons, if_neg ha, if_neg ha] at this

/-! ## MemRead and MemWrite: everything they can answer -/

/-- MemRead answers bytes exactly when the access is empty or ends inside memory (20_memory.md R47). -/
theorem memRead_ok {m : Memory} {a n : Nat} {acc : Access} {bs : List Byte} (h : memRead m a n acc = .ok bs) :
    (n = 0 ∨ a + n - 1 < memSize) ∧ bs = m.readBytes a n := by
  unfold memRead at h
  split at h
  · rename_i hn
    cases h
    exact ⟨.inl hn, by simp [hn, Memory.readBytes]⟩
  · split at h
    · cases h
    · cases h
      exact ⟨.inr (by omega), rfl⟩

/-- MemRead raises MemoryBounds alone, with the lowest address out of bounds (20_memory.md R47). -/
theorem memRead_error {m : Memory} {a n : Nat} {acc : Access} {e : MemFault} (h : memRead m a n acc = .error e) :
    0 < n ∧ memSize ≤ a + n - 1 ∧ e = .bounds (max a memSize) acc := by
  unfold memRead at h
  split at h
  · cases h
  · split at h
    · cases h
      exact ⟨by omega, by assumption, rfl⟩
    · cases h

theorem memRead_of_inside {m : Memory} {a n : Nat} {acc : Access} (h : n = 0 ∨ a + n - 1 < memSize) :
    memRead m a n acc = .ok (m.readBytes a n) := by
  unfold memRead
  split
  · rename_i hn; simp [hn, Memory.readBytes]
  · rw [if_neg (by omega)]

theorem memRead_of_outside {m : Memory} {a n : Nat} {acc : Access} (hn : 0 < n) (h : memSize ≤ a + n - 1) :
    memRead m a n acc = .error (.bounds (max a memSize) acc) := by
  unfold memRead
  rw [if_neg (by omega), if_pos h]

/-- MemWrite writes exactly when the block ends inside memory and is not a reserved write (20_memory.md R48). -/
theorem memWrite_ok {p : Params} {m m' : Memory} {a : Nat} {bs : List Byte} (h : memWrite p m a bs = .ok m') :
    a + bs.length - 1 < memSize ∧ ¬ (p.lowmemWriteFault = true ∧ a < programBase) ∧ m' = m.writeBytes a bs := by
  unfold memWrite at h
  split at h
  · cases h
  · split at h
    · cases h
    · cases h
      exact ⟨by omega, by assumption, rfl⟩

/-- MemWrite raises MemoryBounds first, then ReservedWrite (20_memory.md R48; 60_exceptions.md R143). -/
theorem memWrite_error {p : Params} {m : Memory} {a : Nat} {bs : List Byte} {e : MemFault}
    (h : memWrite p m a bs = .error e) :
    (memSize ≤ a + bs.length - 1 ∧ e = .bounds (max a memSize) .write) ∨
    (a + bs.length - 1 < memSize ∧ p.lowmemWriteFault = true ∧ a < programBase ∧ e = .reserved a) := by
  unfold memWrite at h
  split at h
  · cases h; exact .inl ⟨by assumption, rfl⟩
  · split at h
    · rename_i hp
      cases h
      exact .inr ⟨by omega, hp.1, hp.2, rfl⟩
    · cases h

theorem memWrite_of_inside {p : Params} {m : Memory} {a : Nat} {bs : List Byte}
    (h : a + bs.length - 1 < memSize) (hp : p.lowmemWriteFault = false ∨ programBase ≤ a) :
    memWrite p m a bs = .ok (m.writeBytes a bs) := by
  unfold memWrite
  rw [if_neg (by omega), if_neg]
  rintro ⟨h1, h2⟩
  rcases hp with hp | hp
  · simp [hp] at h1
  · omega

theorem memWrite_of_outside {p : Params} {m : Memory} {a : Nat} {bs : List Byte}
    (h : memSize ≤ a + bs.length - 1) : memWrite p m a bs = .error (.bounds (max a memSize) .write) := by
  unfold memWrite
  rw [if_pos h]

theorem memWrite_of_reserved {p : Params} {m : Memory} {a : Nat} {bs : List Byte}
    (h : a + bs.length - 1 < memSize) (hp : p.lowmemWriteFault = true) (ha : a < programBase) :
    memWrite p m a bs = .error (.reserved a) := by
  unfold memWrite
  rw [if_neg (by omega), if_pos ⟨hp, ha⟩]

/-! ## Fetch -/

/-- A fetch succeeds exactly when PC ≤ 0xFFE, and reads a big-endian word (20_memory.md R43, R49). -/
theorem State.fetch_eq (s : State) :
    s.fetch = if s.pc.toNat ≤ 0xFFE
      then some (wordOfBytes (s.byte s.pc.toNat) (s.byte (s.pc.toNat + 1))) else none := by
  unfold State.fetch
  split
  · rename_i hi lo h
    obtain ⟨hb, hbytes⟩ := memRead_ok h
    have hpc : s.pc.toNat ≤ 0xFFE := by simp only [memSize] at hb; omega
    rw [if_pos hpc]
    have e : s.mem.readBytes s.pc.toNat 2 = [s.byte s.pc.toNat, s.byte (s.pc.toNat + 1)] := rfl
    rw [e] at hbytes
    cases hbytes
    rfl
  · rename_i h
    by_cases hpc : s.pc.toNat ≤ 0xFFE
    · have := memRead_of_inside (m := s.mem) (a := s.pc.toNat) (n := 2) (acc := .fetch)
        (.inr (by simp only [memSize]; omega))
      exact absurd this (h _ _)
    · rw [if_neg hpc]

end Sys2Proof.Machine
end

