-- ==== Sys2Proof/Laws/Step.lean ====
section
/-! SUPPORT. Everything a fault, a block store and a step can answer, said once: later proofs take a step apart by
these lemmas and do not unfold it. -/

namespace Sys2Proof.Machine

/-! ## Taking a fault -/

/-- The record an instruction's fault latches (60_exceptions.md R141), in the state its meaning runs in. -/
def faultRecordOf (i : Instr) (kind : FaultKind) (addr : Option Nat) (access : Option Access) (s : State) :
    FaultRecord :=
  { kind, pc := s.pc - 2, opcode := some (encode i), addr, access }

theorem raise_eq (i : Instr) (kind : FaultKind) (addr : Option Nat) (access : Option Access) (s : State) :
    raise i kind addr access s = .next (s.rewindPc.latch (faultRecordOf i kind addr access s)) := rfl

theorem raiseMem_bounds (i : Instr) (addr : Nat) (access : Access) (s : State) :
    raiseMem i (.bounds addr access) s = raise i .memoryBounds (some addr) (some access) s := rfl

theorem raiseMem_reserved (i : Instr) (addr : Nat) (s : State) :
    raiseMem i (.reserved addr) s = raise i .reservedWrite (some addr) (some .write) s := rfl

/-- Raised on an advanced state, a fault gives back the state before the fetch, with the latch set
(60_exceptions.md R140). -/
theorem raise_advancePc (i : Instr) (kind : FaultKind) (addr : Option Nat) (access : Option Access) (s : State) :
    raise i kind addr access s.advancePc =
      .next (s.latch { kind, pc := s.pc, opcode := some (encode i), addr, access }) := by
  simp [raise_eq, faultRecordOf]

/-! ## A block store -/

/-- A block store either stores the whole block, or raises one of two faults (20_memory.md R48). -/
theorem storeBlock_cases {i : Instr} {bs : List Byte} {s t : State} (h : storeBlock i bs s = .next t) :
    (s.i.toNat + bs.length - 1 < memSize ∧ ¬ (s.params.lowmemWriteFault = true ∧ s.i.toNat < programBase) ∧
      t = { s with mem := s.mem.writeBytes s.i.toNat bs }) ∨
    (memSize ≤ s.i.toNat + bs.length - 1 ∧
      raise i .memoryBounds (some (max s.i.toNat memSize)) (some .write) s = .next t) ∨
    (s.i.toNat + bs.length - 1 < memSize ∧ s.params.lowmemWriteFault = true ∧ s.i.toNat < programBase ∧
      raise i .reservedWrite (some s.i.toNat) (some .write) s = .next t) := by
  unfold storeBlock State.dataAddress at h
  split at h
  · rename_i e he
    rcases memWrite_error he with ⟨hb, rfl⟩ | ⟨hb, hp, ha, rfl⟩
    · exact .inr (.inl ⟨hb, h⟩)
    · exact .inr (.inr ⟨hb, hp, ha, h⟩)
  · rename_i m hm
    obtain ⟨hb, hp, rfl⟩ := memWrite_ok hm
    cases h
    exact .inl ⟨hb, hp, rfl⟩

/-- After a block store that did not fault, every address reads as the block over the state before (20_memory.md R48). -/
theorem byte_storeBlock {i : Instr} {bs : List Byte} {s t : State} (h : storeBlock i bs s = .next t)
    (ht : t.fault = none) (stored : Nat → Byte) (hs : ∀ k (hk : k < bs.length), stored k = bs[k]) (a : Nat) :
    t.byte a = byteOver s s.dataAddress bs.length stored a := by
  rcases storeBlock_cases h with ⟨-, -, rfl⟩ | ⟨-, h⟩ | ⟨-, -, -, h⟩
  · refine (Memory.read_writeBytes _ _ _ _).trans ?_
    unfold byteOver State.byte State.dataAddress
    by_cases hc : s.i.toNat ≤ a ∧ a - s.i.toNat < bs.length
    · rw [dif_pos hc, if_pos (by omega), hs]
    · rw [dif_neg hc, if_neg (by omega)]
  · cases h; cases ht
  · cases h; cases ht

/-! ## A step -/

/-- A finished step is a completed one, which ticked and took its next inputs, or a faulted one. -/
theorem finishStep_cases {r : Result} {t : State} (h : finishStep r = .next t) :
    ∃ u, r = .next u ∧ ((u.fault = none ∧ t = u.tick.nextInput) ∨ (u.fault ≠ none ∧ t = u)) := by
  cases r with
  | next u =>
    simp only [finishStep] at h
    split at h
    · rename_i hu; cases h; exact ⟨_, rfl, .inl ⟨hu, rfl⟩⟩
    · rename_i hu; cases h; exact ⟨_, rfl, .inr ⟨hu, rfl⟩⟩
  | fault e => cases h
  | refused e => cases h

theorem finishStep_completed {u : State} (h : u.fault = none) :
    finishStep (.next u) = .next u.tick.nextInput := by
  simp [finishStep, h]

theorem finishStep_faulted {u : State} (h : u.fault ≠ none) : finishStep (.next u) = .next u := by
  simp [finishStep, h]

/-- Everything a step that answers a next state can have done (30_encoding.md R70). -/
theorem step_cases {s t : State} (h : step s = .next t) :
    s.fault = none ∧
    ((s.fetch = none ∧ raiseFetch s = .next t) ∨
     (∃ w i u, s.fetch = some w ∧ decode s.params w = .ok i ∧ exec i s.advancePc = .next u ∧
       ((u.fault = none ∧ t = u.tick.nextInput) ∨ (u.fault ≠ none ∧ t = u))) ∨
     (∃ w e, s.fetch = some w ∧ decode s.params w = .error e ∧ t = s.advancePc.tick.nextInput)) := by
  unfold step at h
  split at h
  · cases h
  · rename_i hf
    refine ⟨hf, ?_⟩
    split at h
    · rename_i hw; exact .inl ⟨hw, h⟩
    · rename_i w hw
      obtain ⟨u, hu, ht⟩ := finishStep_cases h
      unfold execWord at hu
      split at hu
      · rename_i i hi
        exact .inr (.inl ⟨w, i, u, hw, hi, hu, ht⟩)
      · rename_i e he
        cases hu
        rcases ht with ⟨-, ht⟩ | ⟨hu, -⟩
        · exact .inr (.inr ⟨w, e, hw, he, ht⟩)
        · exact absurd hf hu

/-- A core without a fault whose fetch succeeds runs the decoded instruction. -/
theorem step_of_decode {s : State} {w : Word} {i : Instr} (hf : s.fault = none) (hw : s.fetch = some w)
    (hi : decode s.params w = .ok i) : step s = finishStep (exec i s.advancePc) := by
  simp [step, hf, hw, execWord, hi]

/-- A word that matches no row is a no-op (30_encoding.md R66). -/
theorem step_of_undefined {s : State} {w : Word} {e : DecodeReject} (hf : s.fault = none)
    (hw : s.fetch = some w) (he : decode s.params w = .error e) :
    step s = .next s.advancePc.tick.nextInput := by
  simp [step, hf, hw, execWord, he, execUndefined, finishStep]

theorem step_of_no_fetch {s : State} (hf : s.fault = none) (hw : s.fetch = none) : step s = raiseFetch s := by
  simp [step, hf, hw]

theorem step_of_fault {s : State} {r : FaultRecord} (hf : s.fault = some r) : step s = .fault (.coreFaulted r) := by
  simp [step, hf]

/-- The instruction that runs is the decoded one. -/
theorem State.running_of_decode {s : State} {w : Word} {i : Instr} (hf : s.fault = none) (hw : s.fetch = some w)
    (hi : decode s.params w = .ok i) : s.running = some i := by
  simp [State.running, hf, hw, hi]

/-! ## The sound output -/

/-- The output is on exactly when the sound timer is not 0 (44_keypad_timers.md R127). -/
theorem State.soundActive_iff (s : State) : s.soundActive = true ↔ s.st.toNat ≠ 0 := by
  simp only [State.soundActive, bne_iff_ne, ne_eq]
  exact not_congr ⟨fun h => by rw [h]; rfl, fun h => BitVec.eq_of_toNat_eq h⟩

/-! ## Placing a word where the next step fetches -/

/-- The next step fetches the placed word, whatever the state was. -/
theorem State.fetch_withFetchWord (s : State) (nbits w : Nat) :
    (s.withFetchWord nbits w).fetch = some (tableWord nbits w) := by
  have hpc : (s.withFetchWord nbits w).pc = s.fetchable.pc := rfl
  have hle : s.fetchable.pc.toNat ≤ 0xFFE := by
    unfold State.fetchable
    by_cases h : s.pc.toNat ≤ 0xFFE
    · simp [h]
    · simp [h, programBase]
  have hi := Memory.read_writeBytes_inside (m := s.mem) (a := s.fetchable.pc.toNat) (k := 0)
    (bs := [wordHi (tableWord nbits w), wordLo (tableWord nbits w)]) (by simp)
  have lo := Memory.read_writeBytes_inside (m := s.mem) (a := s.fetchable.pc.toNat) (k := 1)
    (bs := [wordHi (tableWord nbits w), wordLo (tableWord nbits w)]) (by simp)
  rw [State.fetch_eq, hpc, if_pos hle]
  refine congrArg some (Eq.trans ?_ (wordOfBytes_hi_lo _))
  exact congrArg₂ wordOfBytes hi lo

@[simp] theorem State.fault_withFetchWord (s : State) (nbits w : Nat) : (s.withFetchWord nbits w).fault = none := rfl

/-- The step runs the placed word's instruction. -/
theorem step_withFetchWord {s : State} {nbits w : Nat} {i : Instr} (h : decode s.params (tableWord nbits w) = .ok i) :
    step (s.withFetchWord nbits w) = finishStep (exec i (s.withFetchWord nbits w).advancePc) :=
  step_of_decode rfl (s.fetch_withFetchWord nbits w) h

/-! ## Runs -/

/-- A property that holds at every launch, that every step keeps and that the host's inputs keep, holds in every
reachable state. -/
theorem Reachable.of_invariant {c : Configuration} {rom : List Byte} {Inv : State → Prop}
    (launch : ∀ s, construct c rom = .ok s → Inv s)
    (keeps : ∀ s t, Inv s → Machine.step s = .next t → Inv t)
    (inputs : ∀ s coming later, Inv s → Inv (s.withInputs coming later)) {s : State}
    (h : Reachable c rom s) : Inv s := by
  induction h with
  | launch hs => exact launch _ hs
  | step _ hs ih => exact keeps _ _ ih hs
  | inputs coming later _ ih => exact inputs _ coming later ih

end Sys2Proof.Machine
end

