-- ==== Sys2Proof/Laws/Exec.lean ====
section
/-! SUPPORT. Everything an instruction can do, said once: it completes inside its footprint, or it takes the fault
the table gives it. -/

namespace Sys2Proof.Machine

/-- What an instruction that does not fault may change. -/
def footprint (i : Instr) (s : State) : Footprint :=
  match i with
  | .sys _ => {}
  | .cls _ => { display := true }
  | .ret _ | .call _ => { pc := true, stack := true }
  | .jp _ | .jpV0 _ => { pc := true }
  | .seImm _ _ | .sneImm _ _ | .seReg _ _ _ | .sneReg _ _ _ | .skp _ _ | .sknp _ _ => { pc := true }
  | .ldImm x _ | .addImm x _ | .rnd x _ | .ldVxDt x => { regs := [x] }
  | .ldReg x _ | .orReg x _ | .andReg x _ | .xorReg x _ => { regs := [x] }
  | .addReg x _ | .sub x _ | .subn x _ | .shr x _ | .shl x _ => { regs := [x, Reg.VF] }
  | .drw _ _ _ => { regs := [Reg.VF], display := true }
  | .ldVxK x => { regs := [x], pc := true }
  | .ldDtVx _ => { delay := true }
  | .ldStVx _ => { sound := true }
  | .ldI _ | .addI _ | .ldF _ => { index := true }
  | .ldB _ => { storeBase := s.i.toNat, stored := 3 }
  | .ldMemVx x => { storeBase := s.i.toNat, stored := x.val + 1 }
  | .ldVxMem x => { regs := (List.finRange 16).filter fun k => k.val ≤ x.val }

/-- An instruction ran to its end: it was none of the tabled fault cases, it stayed in its footprint, and memory is
as it was or holds one block more, inside memory and not a reserved write. -/
structure Completes (i : Instr) (s t : State) : Prop where
  noFault : expectedFault i s = none
  frame : ChangesOnly (footprint i s) s t
  mem : t.mem = s.mem ∨ ∃ bs, t.mem = s.mem.writeBytes s.i.toNat bs ∧ s.i.toNat + bs.length ≤ memSize ∧
    ¬ (s.params.lowmemWriteFault = true ∧ s.i.toNat < programBase)

/-- An instruction took a fault: the tabled one, with a consistent record, and nothing else happened. -/
def Faults (i : Instr) (s t : State) : Prop :=
  ∃ kind addr access, expectedFault i s = some kind ∧ (faultRecordOf i kind addr access s).consistent ∧
    t = s.rewindPc.latch (faultRecordOf i kind addr access s)

theorem completes_skip {i : Instr} {s : State} {c : Bool} (hf : expectedFault i s = none)
    (hp : footprint i s = { pc := true }) : Completes i s (s.skipIf c) :=
  ⟨hf, hp ▸ changesOnly_skipIf rfl s c, .inl (by cases c <;> rfl)⟩

theorem completes_setReg {i : Instr} {s : State} {x : Reg} {b : Byte} (hf : expectedFault i s = none)
    (hx : x ∈ (footprint i s).regs) : Completes i s (s.setReg x b) :=
  ⟨hf, changesOnly_setReg hx s b, .inl rfl⟩

theorem completes_flag {i : Instr} {s : State} {x : Reg} {b c : Byte} (hf : expectedFault i s = none)
    (hp : footprint i s = { regs := [x, Reg.VF] }) : Completes i s ((s.setFlag b).setReg x c) :=
  ⟨hf, hp ▸ (changesOnly_setFlag (by simp) s b).trans (changesOnly_setReg (by simp) _ c), .inl rfl⟩

theorem faults_bounds {i : Instr} {a : Nat} {acc : Access} {s t : State} (hf : expectedFault i s = some .memoryBounds)
    (hacc : acc ≠ .fetch) (h : raise i .memoryBounds (some (max a memSize)) (some acc) s = .next t) : Faults i s t := by
  cases h
  refine ⟨_, _, _, hf, ⟨⟨_, rfl, Nat.le_max_right _ _⟩, ?_⟩, rfl⟩
  cases acc
  · exact absurd rfl hacc
  · exact .inr (.inl ⟨rfl, by simp [faultRecordOf]⟩)
  · exact .inr (.inr ⟨rfl, by simp [faultRecordOf]⟩)

/-- What the two storing instructions can do. -/
theorem storeBlock_completes_or_faults {i : Instr} {bs : List Byte} {s t : State} (hlen : 0 < bs.length)
    (hp : footprint i s = { storeBase := s.i.toNat, stored := bs.length })
    (hf : expectedFault i s = if 4096 ≤ s.i.toNat + bs.length - 1 then some .memoryBounds
      else if s.params.lowmemWriteFault ∧ s.i.toNat < 0x200 then some .reservedWrite else none)
    (h : storeBlock i bs s = .next t) : Completes i s t ∨ Faults i s t := by
  rcases storeBlock_cases h with ⟨hb, hl, rfl⟩ | ⟨hb, h⟩ | ⟨hb, hl, ha, h⟩
  · refine .inl ⟨by rw [hf, if_neg (by simp only [memSize] at hb; omega), if_neg hl], ?_, .inr ⟨bs, rfl, by omega, hl⟩⟩
    rw [hp]
    exact { ChangesOnly.refl _ s with bytes := fun a ha => Memory.read_writeBytes_outside ha }
  · exact .inr (faults_bounds (by rw [hf, if_pos hb]) (by decide) h)
  · cases h
    refine .inr ⟨_, _, _, by rw [hf, if_neg (by simp only [memSize] at hb; omega), if_pos ⟨hl, ha⟩], ?_, rfl⟩
    exact ⟨by simp [faultRecordOf], ⟨_, rfl, ha⟩, rfl⟩

/-- Everything an instruction that answers a next state can have done. -/
theorem exec_cases {i : Instr} {s t : State} (h : exec i s = .next t) : Completes i s t ∨ Faults i s t := by
  cases i
  case sys => cases h; exact .inl ⟨rfl, ChangesOnly.refl _ s, .inl rfl⟩
  case cls => cases h; exact .inl ⟨rfl, changesOnly_fb rfl s _, .inl rfl⟩
  case jp => cases h; exact .inl ⟨rfl, changesOnly_setPc rfl s _, .inl rfl⟩
  case jpV0 => cases h; exact .inl ⟨rfl, changesOnly_setPc rfl s _, .inl rfl⟩
  case ret pad =>
    by_cases hs : s.sp.val = 0
    · simp only [exec, execRet, State.pop_of_zero hs] at h
      cases h
      exact .inr ⟨_, _, _, if_pos hs, ⟨by simp [faultRecordOf], rfl, rfl⟩, rfl⟩
    · obtain ⟨k, hk⟩ := Nat.exists_eq_succ_of_ne_zero hs
      have hk16 : k < 16 := by have := s.sp.isLt; simp only [stackDepth] at this; omega
      simp only [exec, execRet, State.pop_of_pos hk16 hk] at h
      cases h
      exact .inl ⟨if_neg hs, (changesOnly_stack rfl s s.stack _).trans (changesOnly_setPc rfl _ _), .inl rfl⟩
  case call nnn =>
    by_cases hs : s.sp.val < 16
    · simp only [exec, execCall, State.push_of_lt hs] at h
      cases h
      exact .inl ⟨if_neg (by omega), (changesOnly_stack rfl s _ _).trans (changesOnly_setPc rfl _ _), .inl rfl⟩
    · have hs : s.sp.val = 16 := by have := s.sp.isLt; simp only [stackDepth] at this; omega
      simp only [exec, execCall, State.push_of_full hs] at h
      cases h
      exact .inr ⟨_, _, _, if_pos hs, ⟨by simp [faultRecordOf], rfl, rfl⟩, rfl⟩
  case seImm => cases h; exact .inl (completes_skip rfl rfl)
  case sneImm => cases h; exact .inl (completes_skip rfl rfl)
  case seReg => cases h; exact .inl (completes_skip rfl rfl)
  case sneReg => cases h; exact .inl (completes_skip rfl rfl)
  case ldImm => cases h; exact .inl (completes_setReg rfl (by simp [footprint]))
  case addImm => cases h; exact .inl (completes_setReg rfl (by simp [footprint]))
  case ldReg => cases h; exact .inl (completes_setReg rfl (by simp [footprint]))
  case orReg => cases h; exact .inl (completes_setReg rfl (by simp [footprint]))
  case andReg => cases h; exact .inl (completes_setReg rfl (by simp [footprint]))
  case xorReg => cases h; exact .inl (completes_setReg rfl (by simp [footprint]))
  case rnd => cases h; exact .inl (completes_setReg rfl (by simp [footprint]))
  case ldVxDt => cases h; exact .inl (completes_setReg rfl (by simp [footprint]))
  case addReg => cases h; exact .inl (completes_flag rfl rfl)
  case sub => cases h; exact .inl (completes_flag rfl rfl)
  case subn => cases h; exact .inl (completes_flag rfl rfl)
  case shr => cases h; exact .inl (completes_flag rfl rfl)
  case shl => cases h; exact .inl (completes_flag rfl rfl)
  case ldI => cases h; exact .inl ⟨rfl, changesOnly_setI rfl s _, .inl rfl⟩
  case addI => cases h; exact .inl ⟨rfl, changesOnly_setI rfl s _, .inl rfl⟩
  case ldF => cases h; exact .inl ⟨rfl, changesOnly_setI rfl s _, .inl rfl⟩
  case ldDtVx => cases h; exact .inl ⟨rfl, changesOnly_setDt rfl s _, .inl rfl⟩
  case ldStVx => cases h; exact .inl ⟨rfl, changesOnly_setSt rfl s _, .inl rfl⟩
  case ldVxK x =>
    simp only [exec, execLdVxK] at h
    split at h <;> cases h
    · exact .inl (completes_setReg rfl (by simp [footprint]))
    · exact .inl ⟨rfl, changesOnly_setPc rfl s _, .inl rfl⟩
  case skp x pad =>
    by_cases hk : (s.reg x).toNat < 16
    · simp only [exec, execSkp, keyIndex_of_lt hk] at h
      cases h
      exact .inl (completes_skip (if_neg (by omega)) rfl)
    · have hk : 15 < (s.reg x).toNat := by omega
      simp only [exec, execSkp, keyIndex_of_ge hk] at h
      cases h
      exact .inr ⟨_, _, _, if_pos hk,
        ⟨by simp [faultRecordOf], ⟨_, rfl, hk, Nat.le_of_lt_succ (s.reg x).isLt⟩, rfl⟩, rfl⟩
  case sknp x pad =>
    by_cases hk : (s.reg x).toNat < 16
    · simp only [exec, execSknp, keyIndex_of_lt hk] at h
      cases h
      exact .inl (completes_skip (if_neg (by omega)) rfl)
    · have hk : 15 < (s.reg x).toNat := by omega
      simp only [exec, execSknp, keyIndex_of_ge hk] at h
      cases h
      exact .inr ⟨_, _, _, if_pos hk,
        ⟨by simp [faultRecordOf], ⟨_, rfl, hk, Nat.le_of_lt_succ (s.reg x).isLt⟩, rfl⟩, rfl⟩
  case drw x y n =>
    simp only [exec, execDrw, State.dataAddress] at h
    split at h
    · rename_i e he
      obtain ⟨hn, hb, rfl⟩ := memRead_error he
      exact .inr (faults_bounds (if_pos ⟨hn, hb⟩) (by decide) h)
    · rename_i bs hbs
      obtain ⟨hb, -⟩ := memRead_ok hbs
      cases h
      refine .inl ⟨if_neg (by simp only [memSize] at hb; omega), ?_, .inl rfl⟩
      exact (changesOnly_fb rfl s _).trans (changesOnly_setFlag (by simp [footprint]) _ _)
  case ldB x =>
    exact storeBlock_completes_or_faults (by simp) rfl (by simp [expectedFault]) h
  case ldMemVx x =>
    exact storeBlock_completes_or_faults (by simp) (by simp [footprint]) (by simp [expectedFault, ← Nat.add_assoc]) h
  case ldVxMem x =>
    simp only [exec, execLdVxMem, State.dataAddress] at h
    split at h
    · rename_i e he
      obtain ⟨hn, hb, rfl⟩ := memRead_error he
      exact .inr (faults_bounds (if_pos hb) (by decide) h)
    · rename_i bs hbs
      obtain ⟨hb, rfl⟩ := memRead_ok hbs
      cases h
      refine .inl ⟨if_neg (by simp only [memSize] at hb; omega), ?_, .inl rfl⟩
      exact changesOnly_setRegBlock (fun k hk => by simp at hk; simp [footprint]; omega) s

end Sys2Proof.Machine
end

