-- ==== Sys2Proof/Laws/PerInstr.lean ====
section
/-! SUPPORT. Facts stated for each instruction: the word of an instruction matches its row of the opcode map
(30_encoding.md R65). -/

namespace Sys2Proof.Laws

/-- The "matched by" column of 30_encoding.md R65: mask and match of an instruction's row. -/
def rowOf : Instr → Word × Word
  | .sys _ => (0xF000, 0x0000)
  | .cls _ => (0xF00F, 0x0000)
  | .ret _ => (0xF00F, 0x000E)
  | .jp _ => (0xF000, 0x1000)
  | .call _ => (0xF000, 0x2000)
  | .seImm _ _ => (0xF000, 0x3000)
  | .sneImm _ _ => (0xF000, 0x4000)
  | .seReg _ _ _ => (0xF000, 0x5000)
  | .ldImm _ _ => (0xF000, 0x6000)
  | .addImm _ _ => (0xF000, 0x7000)
  | .ldReg _ _ => (0xF00F, 0x8000)
  | .orReg _ _ => (0xF00F, 0x8001)
  | .andReg _ _ => (0xF00F, 0x8002)
  | .xorReg _ _ => (0xF00F, 0x8003)
  | .addReg _ _ => (0xF00F, 0x8004)
  | .sub _ _ => (0xF00F, 0x8005)
  | .shr _ _ => (0xF00F, 0x8006)
  | .subn _ _ => (0xF00F, 0x8007)
  | .shl _ _ => (0xF00F, 0x800E)
  | .sneReg _ _ _ => (0xF000, 0x9000)
  | .ldI _ => (0xF000, 0xA000)
  | .jpV0 _ => (0xF000, 0xB000)
  | .rnd _ _ => (0xF000, 0xC000)
  | .drw _ _ _ => (0xF000, 0xD000)
  | .skp _ _ => (0xF00F, 0xE00E)
  | .sknp _ _ => (0xF00F, 0xE001)
  | .ldVxDt _ => (0xF0FF, 0xF007)
  | .ldVxK _ => (0xF0FF, 0xF00A)
  | .ldDtVx _ => (0xF0FF, 0xF015)
  | .ldStVx _ => (0xF0FF, 0xF018)
  | .addI _ => (0xF0FF, 0xF01E)
  | .ldF _ => (0xF0FF, 0xF029)
  | .ldB _ => (0xF0FF, 0xF033)
  | .ldMemVx _ => (0xF0FF, 0xF055)
  | .ldVxMem _ => (0xF0FF, 0xF065)

/-- Masking an append masks its parts. -/
theorem append_and {n m : Nat} (a c : BitVec n) (b d : BitVec m) : (a ++ b) &&& (c ++ d) = (a &&& c) ++ (b &&& d) := by
  ext i hi
  by_cases h : i < m <;> simp [BitVec.getElem_append, h]

theorem nnn_masked (c : BitVec 4) (nnn : BitVec 12) : wordNnn c nnn &&& 0xF000#16 = c ++ 0#12 := by
  refine (append_and c 0xF#4 nnn 0#12).trans ?_
  rw [BitVec.and_zero, show c &&& 0xF#4 = c from BitVec.and_allOnes]

theorem xkk_masked (c : BitVec 4) (x : Reg) (kk : Byte) : wordXkk c x kk &&& 0xF000#16 = c ++ 0#12 :=
  nnn_masked c (regBits x ++ kk)

theorem xkk_masked_kk (c : BitVec 4) (x : Reg) (kk : Byte) : wordXkk c x kk &&& 0xF0FF#16 = c ++ (0#4 ++ kk) := by
  refine (append_and c 0xF#4 (regBits x ++ kk) (0#4 ++ 0xFF#8)).trans ?_
  rw [append_and, BitVec.and_zero, show c &&& 0xF#4 = c from BitVec.and_allOnes,
    show kk &&& 0xFF#8 = kk from BitVec.and_allOnes]

theorem xyn_masked (c : BitVec 4) (x : Reg) (y n : BitVec 4) : wordXyn c x y n &&& 0xF000#16 = c ++ 0#12 :=
  nnn_masked c (regBits x ++ (y ++ n))

theorem pad_masked_n (c : BitVec 4) (pad : Byte) (n : BitVec 4) :
    wordPad c pad n &&& 0xF00F#16 = c ++ (0#8 ++ n) := by
  refine (append_and c 0xF#4 (pad ++ n) (0#8 ++ 0xF#4)).trans ?_
  rw [append_and, BitVec.and_zero, show c &&& 0xF#4 = c from BitVec.and_allOnes,
    show n &&& 0xF#4 = n from BitVec.and_allOnes]

theorem xyn_masked_n (c : BitVec 4) (x : Reg) (y n : BitVec 4) :
    wordXyn c x y n &&& 0xF00F#16 = c ++ (0#4 ++ (0#4 ++ n)) := by
  refine (append_and c 0xF#4 (regBits x ++ (y ++ n)) (0#4 ++ (0#4 ++ 0xF#4))).trans ?_
  rw [append_and, append_and, BitVec.and_zero, BitVec.and_zero, show c &&& 0xF#4 = c from BitVec.and_allOnes,
    show n &&& 0xF#4 = n from BitVec.and_allOnes]

end Sys2Proof.Laws

/-- The word of the instruction matches its row of the opcode map (30_encoding.md R65). -/
def Sys2Proof.Laws.MatchesRow.Statement (i : Sys2Proof.Instr) : Prop :=
  Sys2Proof.encode i &&& (Sys2Proof.Laws.rowOf i).1 = (Sys2Proof.Laws.rowOf i).2

namespace Sys2Proof.Laws.MatchesRow

theorem sys (nnn : BitVec 12) : Statement (.sys nnn) := nnn_masked _ nnn
theorem cls (pad : Byte) : Statement (.cls pad) := pad_masked_n _ pad _
theorem ret (pad : Byte) : Statement (.ret pad) := pad_masked_n _ pad _
theorem jp (nnn : BitVec 12) : Statement (.jp nnn) := nnn_masked _ nnn
theorem call (nnn : BitVec 12) : Statement (.call nnn) := nnn_masked _ nnn
theorem seImm (x : Reg) (kk : Byte) : Statement (.seImm x kk) := xkk_masked _ x kk
theorem sneImm (x : Reg) (kk : Byte) : Statement (.sneImm x kk) := xkk_masked _ x kk
theorem seReg (x y : Reg) (pad : BitVec 4) : Statement (.seReg x y pad) := xyn_masked _ x _ pad
theorem ldImm (x : Reg) (kk : Byte) : Statement (.ldImm x kk) := xkk_masked _ x kk
theorem addImm (x : Reg) (kk : Byte) : Statement (.addImm x kk) := xkk_masked _ x kk
theorem ldReg (x y : Reg) : Statement (.ldReg x y) := xyn_masked_n _ x (regBits y) _
theorem orReg (x y : Reg) : Statement (.orReg x y) := xyn_masked_n _ x (regBits y) _
theorem andReg (x y : Reg) : Statement (.andReg x y) := xyn_masked_n _ x (regBits y) _
theorem xorReg (x y : Reg) : Statement (.xorReg x y) := xyn_masked_n _ x (regBits y) _
theorem addReg (x y : Reg) : Statement (.addReg x y) := xyn_masked_n _ x (regBits y) _
theorem sub (x y : Reg) : Statement (.sub x y) := xyn_masked_n _ x (regBits y) _
theorem shr (x : Reg) (pad : BitVec 4) : Statement (.shr x pad) := xyn_masked_n _ x pad _
theorem subn (x y : Reg) : Statement (.subn x y) := xyn_masked_n _ x (regBits y) _
theorem shl (x : Reg) (pad : BitVec 4) : Statement (.shl x pad) := xyn_masked_n _ x pad _
theorem sneReg (x y : Reg) (pad : BitVec 4) : Statement (.sneReg x y pad) := xyn_masked _ x _ pad
theorem ldI (nnn : BitVec 12) : Statement (.ldI nnn) := nnn_masked _ nnn
theorem jpV0 (nnn : BitVec 12) : Statement (.jpV0 nnn) := nnn_masked _ nnn
theorem rnd (x : Reg) (kk : Byte) : Statement (.rnd x kk) := xkk_masked _ x kk
theorem drw (x y : Reg) (n : BitVec 4) : Statement (.drw x y n) := xyn_masked _ x _ n
theorem skp (x : Reg) (pad : BitVec 4) : Statement (.skp x pad) := xyn_masked_n _ x pad _
theorem sknp (x : Reg) (pad : BitVec 4) : Statement (.sknp x pad) := xyn_masked_n _ x pad _
theorem ldVxDt (x : Reg) : Statement (.ldVxDt x) := xkk_masked_kk _ x _
theorem ldVxK (x : Reg) : Statement (.ldVxK x) := xkk_masked_kk _ x _
theorem ldDtVx (x : Reg) : Statement (.ldDtVx x) := xkk_masked_kk _ x _
theorem ldStVx (x : Reg) : Statement (.ldStVx x) := xkk_masked_kk _ x _
theorem addI (x : Reg) : Statement (.addI x) := xkk_masked_kk _ x _
theorem ldF (x : Reg) : Statement (.ldF x) := xkk_masked_kk _ x _
theorem ldB (x : Reg) : Statement (.ldB x) := xkk_masked_kk _ x _
theorem ldMemVx (x : Reg) : Statement (.ldMemVx x) := xkk_masked_kk _ x _
theorem ldVxMem (x : Reg) : Statement (.ldVxMem x) := xkk_masked_kk _ x _

end Sys2Proof.Laws.MatchesRow
end

