-- ==== Sys2Proof/Tests/Slice0.lean ====
section
/-! SUPPORT. Tests. A test named after a vector (A1, B2, …) takes its start and its expected end from
95_test_vectors.md; a theorem named witness_… shows a state and operands that meet the hypotheses of the obligation it
names, at the boundary values of its clauses. -/

namespace Sys2Proof.Tests

open Sys2Proof Sys2Proof.Machine

/-! ## Helpers -/

/-- The clean launch with an empty ROM and RND = 0, the start of the vectors. -/
def start : State := { State.reset with rnd := 0 }

/-- The state with a word at PC. -/
def placed (w : Word) (s : State) : State := { s with mem := s.mem.writeBytes s.pc.toNat [wordHi w, wordLo w] }

/-- What one step of a word at PC leaves, seen through f. -/
def after {α : Type} (w : Word) (s : State) (f : State → α) : Option α :=
  match step (placed w s) with
  | .next t => some (f t)
  | _ => none

/-- The latched record, its code, and PC. -/
def faultView (t : State) : Option FaultRecord × Option Nat × Word :=
  (t.fault, t.fault.map FaultRecord.code, t.pc)

def withBytes (a : Nat) (bs : List Byte) (s : State) : State := { s with mem := s.mem.writeBytes a bs }
def withPixel (r : Fin fbRows) (c : Fin fbCols) (s : State) : State := { s with fb := Framebuffer.toggle s.fb r c }
def withKey (k : KeyIx) (s : State) : State := { s with keys := s.keys.set k.val true }
def withSp (sp : Fin 17) (s : State) : State := { s with sp := sp }
def withParams (p : Params) (s : State) : State := { s with params := p }
def protect : Params := { lowmemWriteFault := true }

/-- The lit pixels of one row, as column numbers. -/
def litColumns (t : State) (r : Fin fbRows) : List Nat :=
  ((List.finRange fbCols).filter fun c => Framebuffer.pixel t.fb r c).map fun c => c.val

/-! ## Well-formedness: a word of CLS or of RET is no SYS -/

theorem test_sys_of_cls_word_refused : (Instr.sys 0x0E0).wf = false := by decide
theorem test_sys_of_ret_word_refused : (Instr.sys 0x12E).wf = false := by decide
theorem test_sys_accepted : (Instr.sys 0x123).wf = true := by decide

/-! ## Decoding: a word of each row of 30_encoding.md R65 -/

theorem test_decode_display :
    decode {} 0b0000000011100000 = .ok (.cls 0x0E) ∧ decode {} 0b1101000100100101 = .ok (.drw 1 2 5) := by decide

theorem test_decode_control_flow :
    decode {} 0b0000000100100011 = .ok (.sys 0x123) ∧ decode {} 0b0000000011101110 = .ok (.ret 0x0E) ∧
    decode {} 0b0001001000000100 = .ok (.jp 0x204) ∧ decode {} 0b0010001100000000 = .ok (.call 0x300) ∧
    decode {} 0b0011001100010010 = .ok (.seImm 3 0x12) ∧ decode {} 0b0100001100010010 = .ok (.sneImm 3 0x12) ∧
    decode {} 0b0101000100100001 = .ok (.seReg 1 2 1) ∧ decode {} 0b1001000100100000 = .ok (.sneReg 1 2 0) ∧
    decode {} 0b1011001100000000 = .ok (.jpV0 0x300) := by decide

theorem test_decode_alu :
    decode {} 0b0110101000000101 = .ok (.ldImm 10 5) ∧ decode {} 0b0111101000000011 = .ok (.addImm 10 3) ∧
    decode {} 0b1000000100100000 = .ok (.ldReg 1 2) ∧ decode {} 0b1000000100100001 = .ok (.orReg 1 2) ∧
    decode {} 0b1000000100100010 = .ok (.andReg 1 2) ∧ decode {} 0b1000000100100011 = .ok (.xorReg 1 2) ∧
    decode {} 0b1000000100100100 = .ok (.addReg 1 2) ∧ decode {} 0b1000000100100101 = .ok (.sub 1 2) ∧
    decode {} 0b1000000101010110 = .ok (.shr 1 5) ∧ decode {} 0b1000000100100111 = .ok (.subn 1 2) ∧
    decode {} 0b1000000100001110 = .ok (.shl 1 0) ∧ decode {} 0b1100000100001111 = .ok (.rnd 1 0x0F) := by decide

theorem test_decode_index_memory :
    decode {} 0b1010001100000000 = .ok (.ldI 0x300) ∧ decode {} 0b1111001000011110 = .ok (.addI 2) ∧
    decode {} 0b1111000000101001 = .ok (.ldF 0) ∧ decode {} 0b1111001100110011 = .ok (.ldB 3) ∧
    decode {} 0b1111001001010101 = .ok (.ldMemVx 2) ∧ decode {} 0b1111001001100101 = .ok (.ldVxMem 2) := by decide

theorem test_decode_keypad_timers :
    decode {} 0b1110000110011110 = .ok (.skp 1 9) ∧ decode {} 0b1110000110100001 = .ok (.sknp 1 0xA) ∧
    decode {} 0b1111010100000111 = .ok (.ldVxDt 5) ∧ decode {} 0b1111001100001010 = .ok (.ldVxK 3) ∧
    decode {} 0b1111000000010101 = .ok (.ldDtVx 0) ∧ decode {} 0b1111000000011000 = .ok (.ldStVx 0) := by decide

/-- The words outside the conventional forms (30_encoding.md R67), and the three undefined spaces (R66). -/
theorem test_decode_aliases_and_undefined :
    decode {} 0x0120 = .ok (.cls 0x12) ∧ decode {} 0x012E = .ok (.ret 0x12) ∧ decode {} 0xE11E = .ok (.skp 1 1) ∧
    decode {} 0xE1F1 = .ok (.sknp 1 0xF) ∧ decode {} 0x8128 = .error (.undefinedEncoding 0x8128) ∧
    decode {} 0xE110 = .error (.undefinedEncoding 0xE110) ∧
    decode {} 0xF0FF = .error (.undefinedEncoding 0xF0FF) := by decide

theorem test_decode_and_is_or :
    decode { andIsOr := true } 0x8122 = .ok (.orReg 1 2) ∧ decode { andIsOr := true } 0x8121 = .ok (.orReg 1 2) := by
  decide

theorem test_decode_bytes :
    decodeBytes {} [0x6A, 0x05, 0x7A] = .ok (.ldImm 10 5, [0x7A]) ∧ decodeBytes {} [0x6A] = .error .truncated ∧
    decodeTableWord 16 0x6A05 = some (.ldImm 10 5) ∧ encodeBytes (.ldImm 10 5) = [0x6A, 0x05] := by decide

/-- The next step fetches and runs the placed word as the first instruction after reset. -/
theorem test_withFetchWord :
    (State.reset.withFetchWord 16 0x6A05).fetch = some 0x6A05 ∧
    (State.reset.withFetchWord 16 0x6A05).running = some (.ldImm 10 5) := by decide

/-! ## Register and ALU instructions -/

theorem test_S2 : after 0x6A05 start (fun t => (t.reg 10, t.pc)) = some (0x05, 0x202) := by decide
theorem test_A2 : after 0x8F10 ((start.setReg 1 0x12).setReg 15 1) (fun t => t.reg 15) = some 0x12 := by decide
theorem test_A3 : after 0x71FF ((start.setReg 1 0x01).setReg 15 7) (fun t => (t.reg 1, t.reg 15)) = some (0, 7) := by
  decide
theorem test_A4 : after 0x7F01 (start.setReg 15 0xFF) (fun t => t.reg 15) = some 0 := by decide
theorem test_A5 :
    after 0x8124 ((start.setReg 1 0xFF).setReg 2 0x01) (fun t => (t.reg 1, t.reg 15)) = some (0, 1) := by decide
theorem test_A7 : after 0x8F24 ((start.setReg 15 0x10).setReg 2 0x20) (fun t => t.reg 15) = some 0x30 := by decide
theorem test_A12 : after 0x8F25 ((start.setReg 15 0x07).setReg 2 0x03) (fun t => t.reg 15) = some 0xFE := by decide
theorem test_A13 :
    after 0x81F5 ((start.setReg 1 0x07).setReg 15 0x03) (fun t => (t.reg 1, t.reg 15)) = some (6, 1) := by decide
theorem test_A17 :
    after 0x8127 ((start.setReg 1 0x03).setReg 2 0x05) (fun t => (t.reg 1, t.reg 15)) = some (2, 1) := by decide
theorem test_A19 :
    after 0x81F7 ((start.setReg 1 0x03).setReg 15 0x07) (fun t => (t.reg 1, t.reg 15)) = some (0xFE, 1) := by decide
theorem test_A20 : after 0x8106 (start.setReg 1 0xFF) (fun t => (t.reg 1, t.reg 15)) = some (0x7F, 1) := by decide
theorem test_A22 : after 0x8F06 (start.setReg 15 0xFF) (fun t => t.reg 15) = some 0 := by decide
theorem test_A24 : after 0x810E (start.setReg 1 0x81) (fun t => (t.reg 1, t.reg 15)) = some (2, 1) := by decide
theorem test_A25 : after 0x8F0E (start.setReg 15 0x80) (fun t => t.reg 15) = some 2 := by decide
theorem test_A27 :
    after 0x8121 (((start.setReg 1 0x0F).setReg 2 0xF0).setReg 15 9) (fun t => (t.reg 1, t.reg 15)) = some (0xFF, 9) := by
  decide
theorem test_A28 : after 0x8122 ((start.setReg 1 0x3C).setReg 2 0x0F) (fun t => t.reg 1) = some 0x0C := by decide
theorem test_A29 :
    after 0x8122 (withParams { andIsOr := true } ((start.setReg 1 0x3C).setReg 2 0x0F)) (fun t => t.reg 1) =
      some 0x3F := by decide
theorem test_A30 : after 0x8113 (start.setReg 1 0x3C) (fun t => t.reg 1) = some 0 := by decide
theorem test_A32 : after 0xC10F { start with rnd := 0xA7 } (fun t => t.reg 1) = some 0x07 := by decide

/-! ## Control flow -/

theorem test_B1 : after 0x1204 start (fun t => t.pc) = some 0x204 := by decide
theorem test_B4 :
    after 0x2300 (withSp 15 start) (fun t => (t.stack.get 15, t.sp.val, t.pc)) = some (0x202, 16, 0x300) := by decide
theorem test_B5 :
    after 0x2300 (withSp 16 start) faultView =
      some (some ⟨.stackOverflow, 0x200, some 0x2300, none, none⟩, some 1, 0x200) := by decide
theorem test_B7 :
    after 0x00EE start faultView =
      some (some ⟨.stackUnderflow, 0x200, some 0x00EE, none, none⟩, some 2, 0x200) := by decide
theorem test_B8 :
    after 0x012E { withSp 1 start with stack := start.stack.set 0 0x206 }
      (fun t => (t.sp.val, t.pc, t.stack.get 0)) = some (0, 0x206, 0x206) := by decide
theorem test_B10 :
    after 0x0120 (withPixel 5 5 start) (fun t => (Framebuffer.pixel t.fb 5 5, t.pc)) = some (false, 0x202) := by decide
theorem test_B11 : after 0x0123 start (fun t => (t.pc, t.fault)) = some (0x202, none) := by decide
theorem test_B12 : after 0x3312 (start.setReg 3 0x12) (fun t => t.pc) = some 0x204 := by decide
theorem test_B13 : after 0x3313 (start.setReg 3 0x12) (fun t => t.pc) = some 0x202 := by decide
theorem test_B14 : after 0x4312 (start.setReg 3 0x12) (fun t => t.pc) = some 0x202 := by decide
theorem test_B15 : after 0x4300 (start.setReg 3 0x12) (fun t => t.pc) = some 0x204 := by decide
theorem test_B16 : after 0x5121 ((start.setReg 1 7).setReg 2 7) (fun t => t.pc) = some 0x204 := by decide
theorem test_B18 :
    after 0x9120 (((start.setReg 0 1).setReg 1 1).setReg 2 2) (fun t => t.pc) = some 0x204 := by decide
theorem test_B19 :
    after 0x9120 (withParams { sneReadsV0 := true } (((start.setReg 0 1).setReg 1 1).setReg 2 2)) (fun t => t.pc) =
      some 0x202 := by decide
theorem test_B21 : after 0xB300 (start.setReg 0 0x10) (fun t => t.pc) = some 0x310 := by decide
theorem test_B22 : after 0xBFFF (start.setReg 0 0xFF) (fun t => (t.pc, t.fetch)) = some (0x10FE, none) := by decide

/-! ## Index register and memory -/

theorem test_C1 : after 0xA300 start (fun t => t.i) = some 0x300 := by decide
theorem test_C3 : after 0xF11E ((start.setI 0xFFFF).setReg 1 1) (fun t => (t.i, t.reg 15)) = some (0, 0) := by decide
theorem test_C4 : after 0xF11E ((start.setI 0x0FFF).setReg 1 1) (fun t => (t.i, t.fault)) = some (0x1000, none) := by
  decide
theorem test_C5 : after 0xF029 (start.setReg 0 0x0A) (fun t => t.i) = some 0x082 := by decide
theorem test_C8 : after 0xF029 (start.setReg 0 0xFF) (fun t => t.i) = some 0x54B := by decide
theorem test_C9 :
    after 0xF333 ((start.setReg 3 0xFF).setI 0x300) (fun t => (t.mem.readBytes 0x300 3, t.i)) =
      some ([2, 5, 5], 0x300) := by decide
theorem test_C12 :
    after 0xF333 ((start.setReg 3 1).setI 0xFFE) faultView =
      some (some ⟨.memoryBounds, 0x200, some 0xF333, some 0x1000, some .write⟩, some 3, 0x200) := by decide
theorem test_C15 :
    after 0xF255 ((((start.setReg 0 1).setReg 1 2).setReg 2 3).setI 0x400)
      (fun t => (t.mem.readBytes 0x400 4, t.i)) = some ([1, 2, 3, 0], 0x400) := by decide
theorem test_C18 :
    after 0xF155 (withParams protect ((start.setReg 0 9).setI 0x1FF)) (fun t => (faultView t, t.byte 0x200)) =
      some ((some ⟨.reservedWrite, 0x200, some 0xF155, some 0x1FF, some .write⟩, some 5, 0x200), 0xF1) := by decide
theorem test_C20 :
    after 0xF265 (withBytes 0x300 [2, 5, 5] (start.setI 0x300)) (fun t => (t.reg 0, t.reg 1, t.reg 2, t.reg 3)) =
      some (2, 5, 5, 0) := by decide
theorem test_C22 :
    after 0xF065 (start.setI 0x2000) faultView =
      some (some ⟨.memoryBounds, 0x200, some 0xF065, some 0x2000, some .read⟩, some 3, 0x200) := by decide

/-! ## Display -/

/-- D2: a sprite that crosses the right edge and the bottom edge wraps. -/
theorem test_D2 :
    after 0xD012 (withBytes 0x300 [0xFF, 0x81] (((start.setReg 0 0x3E).setReg 1 0x1E).setI 0x300))
      (fun t => (litColumns t 30, litColumns t 31, t.reg 15)) =
      some ([0, 1, 2, 3, 4, 5, 62, 63], [5, 62], 0) := by decide
theorem test_D4 :
    after 0xD011 (withPixel 0 1 (withBytes 0x300 [0xC0] (start.setI 0x300))) (fun t => (litColumns t 0, t.reg 15)) =
      some ([0], 1) := by decide

/-! ## Keypad and timers -/

theorem test_E1 : after 0xE19E (withKey 5 (start.setReg 1 5)) (fun t => t.pc) = some 0x204 := by decide
theorem test_E4 : after 0xE1A1 (withKey 5 (start.setReg 1 5)) (fun t => t.pc) = some 0x202 := by decide
theorem test_E6 : after 0xE1F1 (start.setReg 1 5) (fun t => t.pc) = some 0x204 := by decide
theorem test_E7 :
    after 0xE19E (start.setReg 1 0x10) faultView =
      some (some ⟨.keyIndex, 0x200, some 0xE19E, some 0x10, none⟩, some 4, 0x200) := by decide
theorem test_E10 :
    after 0xF30A (withKey 9 (withKey 7 (start.setPc 0x220))) (fun t => (t.reg 3, t.pc)) = some (7, 0x222) := by decide
theorem test_E11 :
    after 0xF30A { start with pc := 0x220, dt := 5, st := 1 } (fun t => (t.pc, t.dt, t.st)) = some (0x220, 4, 0) := by
  decide
theorem test_E12 : after 0xF507 { start with dt := 0x3C } (fun t => (t.reg 5, t.dt)) = some (0x3C, 0x3B) := by decide
theorem test_E14 : after 0xF015 (start.setReg 0 5) (fun t => t.dt) = some 4 := by decide
theorem test_E16 : after 0xF018 (start.setReg 0 0x10) (fun t => (t.st, t.soundActive)) = some (0x0F, true) := by decide
theorem test_E17 : after 0xF118 (start.setReg 1 1) (fun t => (t.st, t.soundActive)) = some (0, false) := by decide
theorem test_E18 :
    after 0x8FF8 { start with dt := 2, st := 2 } (fun t => (t.pc, t.dt, t.st)) = some (0x202, 1, 1) := by decide

/-! ## The step, faults and construction -/

/-- F1: a faulted core answers its record. -/
theorem test_F1 :
    step (start.latch { kind := .stackOverflow, pc := 0x200, opcode := some 0x2300, addr := none, access := none }) =
      .fault (.coreFaulted { kind := .stackOverflow, pc := 0x200, opcode := some 0x2300, addr := none, access := none }) :=
  rfl
theorem test_F3 : after 0x1200 (start.setPc 0xFFE) (fun t => t.pc) = some 0x200 := by decide
theorem test_F4 : after 0x00EE { start with dt := 5 } (fun t => (t.fault.isSome, t.dt)) = some (true, 5) := by decide
theorem test_F5 : construct {} (List.replicate 3585 0) = .error (.romLoad 3585) := by
  simp only [construct, List.length_replicate]; rfl
theorem test_F7 :
    (match step start with
      | .next t => some (start.running, t.pc)
      | _ => none) = some (some (.cls 0x00), 0x202) := by decide

/-! ## Witnesses: the hypotheses of each obligation can be met -/

theorem witness_ClearScreenUnlitsEveryPixel : (0x0120 : Word) &&& 0xF00F = 0x0000 := by decide

/-- Both ways to meet the hypothesis at their edge; a covered lit pixel; no covered pixel at all. -/
theorem witness_DrawSpriteInvertsCoveredPixels :
    (start.setI 0xFFE).i.toNat + (2 : BitVec 4).toNat ≤ 4096 ∧
    SpriteCovers (withBytes 0x300 [0xC0] (start.setI 0x300)) 0 1 1 0 1 ∧
    Framebuffer.pixel (withPixel 0 1 start).fb 0 1 = true ∧
    SpriteCovers (withBytes 0x300 [0xFF, 0x81] (((start.setReg 0 0x3E).setReg 1 0x1E).setI 0x300)) 0 1 2 31 5 ∧
    ¬ ∃ r c, SpriteCovers (start.setI 0x2000) 0 0 0 r c :=
  ⟨by decide, ⟨0, 1, by decide⟩, by decide, ⟨1, 7, by decide⟩, fun ⟨_, _, _, _, h, _⟩ => Nat.not_lt_zero _ h⟩

theorem witness_DrawTwiceRestoresFramebuffer :
    ∃ t w, exec (.drw 0 0 5) (start.setI 0x050) = .next t ∧ t.fault = none ∧
      (∀ k, k < 5 → t.byte (t.i.toNat + k) = (start.setI 0x050).byte ((start.setI 0x050).i.toNat + k)) ∧
      SpriteCovers (start.setI 0x050) 0 0 5 0 0 ∧ Framebuffer.pixel start.fb 0 0 = false ∧
      exec (.drw 0 0 5) t = .next w ∧ w.fault = none :=
  ⟨_, _, rfl, by decide, by decide, ⟨0, 0, by decide⟩, by decide, rfl, by decide⟩

/-- The other VF clause: a sprite without a set bit. -/
theorem witness_DrawTwice_no_bit :
    ∃ t w, exec (.drw 0 0 0) start = .next t ∧ t.fault = none ∧ exec (.drw 0 0 0) t = .next w ∧ w.fault = none ∧
      ¬ ∃ r c, SpriteCovers start 0 0 0 r c :=
  ⟨_, _, rfl, by decide, rfl, by decide, fun ⟨_, _, _, _, h, _⟩ => Nat.not_lt_zero _ h⟩

theorem witness_DrawClearDrawLeavesSprite :
    ∃ t u w, exec (.drw 0 0 5) (start.setI 0x050) = .next t ∧ t.fault = none ∧ exec (.cls 0x0E) t = .next u ∧
      (∀ k, k < 5 → u.byte (u.i.toNat + k) = (start.setI 0x050).byte ((start.setI 0x050).i.toNat + k)) ∧
      exec (.drw 0 0 5) u = .next w ∧ w.fault = none :=
  ⟨_, _, _, rfl, by decide, rfl, by decide, rfl, by decide⟩

theorem witness_SysAndUndefinedWordsDoNothing :
    (placed 0x8128 start).fault = none ∧ (placed 0x8128 start).fetch = some 0x8128 ∧
    decode start.params 0x8128 = .error (.undefinedEncoding 0x8128) ∧
    (placed 0x0123 start).fetch = some 0x0123 ∧ decode start.params 0x0123 = .ok (.sys 0x123) ∧
    (placed 0x8128 start).pending = [] ∧
    (placed 0x8128 { start with pending := [⟨start.keys, 7⟩] }).pending = [⟨start.keys, 7⟩] := by decide

theorem witness_JumpSetsPcToOperand : (0x1FFF : Word) &&& 0xF000 = 0x1000 ∧ fieldNnn 0x1FFF = 0xFFF := by decide
theorem witness_CallPushesReturnAddress : (withSp 0 start).sp.val < 16 ∧ (withSp 15 start).sp.val < 16 := by decide
theorem witness_ReturnPopsIntoPc : (withSp 1 start).sp.val = 0 + 1 ∧ (withSp 16 start).sp.val = 15 + 1 := by decide
theorem witness_StackFaultsAreTaken : (withSp 16 start).sp.val = 16 ∧ (withSp 0 start).sp.val = 0 := by decide

theorem witness_ReturnUndoesCall :
    (withSp 15 start).sp.val < 16 ∧
    ∃ t, exec (.call 0x300) (withSp 15 start).advancePc = .next t ∧ t.stack = t.stack ∧ t.sp = t.sp :=
  ⟨by decide, _, rfl, rfl, rfl⟩

theorem witness_SkipOnImmediate :
    (0x3312 : Word) &&& 0xF000 = 0x3000 ∧ (0x4312 : Word) &&& 0xF000 = 0x4000 ∧
    (start.setReg 3 0x12).reg 3 = 0x12 ∧ (start.setReg 3 0x12).reg 3 ≠ 0x13 := by decide

theorem witness_SkipOnEqualRegisters :
    (0x5121 : Word) &&& 0xF000 = 0x5000 ∧ start.reg 1 = start.reg 2 ∧ (start.setReg 1 7).reg 1 ≠ start.reg 2 := by
  decide

/-- Both values of the parameter, with V1 equal to V0 and different from V2, and the other way round. -/
theorem witness_SkipOnUnequalRegisters :
    start.params.sneReadsV0 = false ∧ (withParams { sneReadsV0 := true } start).params.sneReadsV0 = true ∧
    ((start.setReg 2 2).reg 1 ≠ (start.setReg 2 2).reg 2 ∧ (start.setReg 2 2).reg 1 = (start.setReg 2 2).reg 0) ∧
    ((start.setReg 0 2).reg 1 = (start.setReg 0 2).reg 2 ∧ (start.setReg 0 2).reg 1 ≠ (start.setReg 0 2).reg 0) := by
  decide

theorem witness_JumpOffsetAddsV0 :
    0xFFE < (start.reg Reg.V0).toNat + (0xFFF : BitVec 12).toNat ∧
    (start.reg Reg.V0).toNat + (0xFFE : BitVec 12).toNat ≤ 0xFFE := by decide

theorem witness_LoadImmediateSetsRegister : (0x6A05 : Word) &&& 0xF000 = 0x6000 := by decide
theorem witness_LoadRegisterCopies : (0x8120 : Word) &&& 0xF00F = 0x8000 := by decide
theorem witness_AddImmediateWrapsWithoutFlag : (0x7A03 : Word) &&& 0xF000 = 0x7000 := by decide

theorem witness_OrXorActBitwise :
    (0x8121 : Word) &&& 0xF00F = 0x8001 ∧ (0x8123 : Word) &&& 0xF00F = 0x8003 ∧
    ({ andIsOr := true } : Params).andIsOr = true ∧ (0x8122 : Word) &&& 0xF00F = 0x8002 := by decide

theorem witness_AndActsBitwise : ({} : Params).andIsOr = false ∧ (0x8122 : Word) &&& 0xF00F = 0x8002 := by decide

/-- Sums of 255 and of 256. -/
theorem witness_AddRegistersSetsCarry :
    (1 : Reg) ≠ Reg.VF ∧ ((start.setReg 1 0xFF).reg 1).toNat + ((start.setReg 1 0xFF).reg 2).toNat ≤ 255 ∧
    255 < (((start.setReg 1 0xFF).setReg 2 1).reg 1).toNat + (((start.setReg 1 0xFF).setReg 2 1).reg 2).toNat := by
  decide

/-- Both values of f, the operands being equal for 0, and the four ways x and y can be F or not. -/
theorem witness_SubtractSetsGreaterFlag :
    1 = (if ((start.setReg 1 1).reg 2).toNat < ((start.setReg 1 1).reg 1).toNat then 1 else 0) ∧
    0 = (if (start.reg 2).toNat < (start.reg 1).toNat then 1 else 0) ∧
    (1 : Reg) ≠ Reg.VF ∧ (15 : Reg) = Reg.VF := by decide

theorem witness_SubtractReverseSetsGreaterFlag :
    1 = (if ((start.setReg 2 1).reg 1).toNat < ((start.setReg 2 1).reg 2).toNat then 1 else 0) ∧
    0 = (if (start.reg 1).toNat < (start.reg 2).toNat then 1 else 0) ∧
    (1 : Reg) ≠ Reg.VF ∧ (15 : Reg) = Reg.VF := by decide

theorem witness_ShiftsSetShiftedOutBit : (1 : Reg) ≠ Reg.VF ∧ (15 : Reg) = Reg.VF := by decide
theorem witness_LoadIndexSetsOperand : (0xA300 : Word) &&& 0xF000 = 0xA000 := by decide

/-- The highest address that fits, a low address without the parameter, and the lowest allowed one with it. -/
theorem witness_StoreBcdWritesDigits :
    ((start.setI 0xFFD).i.toNat + 2 < 4096 ∧ start.params.lowmemWriteFault = false) ∧
    ((start.setI 0x100).i.toNat + 2 < 4096 ∧ start.params.lowmemWriteFault = false) ∧
    (start.setI 0x200).i.toNat + 2 < 4096 ∧ 0x200 ≤ (start.setI 0x200).i.toNat := by decide

theorem witness_StoreBlockWritesRegisters :
    ((start.setI 0xFF0).i.toNat + (15 : Reg).val < 4096 ∧ start.params.lowmemWriteFault = false) ∧
    (start.setI 0x200).i.toNat + (0 : Reg).val < 4096 ∧ 0x200 ≤ (start.setI 0x200).i.toNat := by decide

theorem witness_LoadBlockReadsRegisters :
    (start.setI 0xFF0).i.toNat + (15 : Reg).val < 4096 ∧ (start.setI 0xFFF).i.toNat + (0 : Reg).val < 4096 ∧
    (0 : Reg).val ≤ (0 : Reg).val ∧ (0 : Reg).val < (1 : Reg).val := by decide

/-- Each instruction at the first address out of bounds, and the two stores at the last protected address. -/
theorem witness_BlockAccessFaultsAreTaken :
    (4096 ≤ (start.setI 0xFFE).i.toNat + 3 - 1) ∧ (4096 ≤ (start.setI 0xFF1).i.toNat + ((15 : Reg).val + 1) - 1) ∧
    (4096 ≤ (start.setI 0x1000).i.toNat + ((0 : Reg).val + 1) - 1) ∧
    (4096 ≤ (start.setI 0xFFE).i.toNat + (3 : BitVec 4).toNat - 1 ∧ 1 ≤ (3 : BitVec 4).toNat) ∧
    (withParams protect start).params.lowmemWriteFault = true ∧ (start.setI 0x1FF).i.toNat < 0x200 := by decide

theorem witness_LoadBlockUndoesStoreBlock :
    ∃ t, exec (.ldMemVx 15) (start.setI 0xFF0) = .next t ∧ t.fault = none ∧ t.i = (start.setI 0xFF0).i :=
  ⟨_, rfl, by decide, by decide⟩

/-- Digits stored up to the last address and fetched by the last word that can be, inside the block; one register
stored and fetched by the word that ends in it; and the two hypotheses on the stored bytes. -/
theorem witness_StoredBytesAreFetched :
    (∃ t, exec (.ldB 3) ((start.setReg 3 0xFF).setI 0xFFD) = .next t ∧ t.fault = none ∧
      (t.setPc 0xFFE).pc.toNat ≤ 0xFFE ∧ (t.setPc 0xFFE).byte 0xFFE = t.byte 0xFFE ∧
      (t.setPc 0xFFE).byte (0xFFE + 1) = t.byte (0xFFE + 1)) ∧
    (∃ t, exec (.ldMemVx 0) ((start.setReg 0 9).setI 0x300) = .next t ∧ t.fault = none ∧
      (t.setPc 0x2FF).pc.toNat ≤ 0xFFE ∧ (t.setPc 0x2FF).byte 0x2FF = t.byte 0x2FF ∧
      (t.setPc 0x2FF).byte (0x2FF + 1) = t.byte (0x2FF + 1)) ∧
    (∃ stored : Nat → Byte, (stored 0).toNat = 0xFF / 100 ∧ (stored 1).toNat = 0xFF / 10 % 10 ∧
      (stored 2).toNat = 0xFF % 10) ∧
    ∃ stored : Nat → Byte, ∀ k : Reg, k.val ≤ (0 : Reg).val → stored k.val = (start.setReg 0 9).reg k :=
  ⟨⟨_, rfl, by decide, by decide, rfl, rfl⟩, ⟨_, rfl, by decide, by decide, rfl, rfl⟩,
    ⟨fun k => if k = 0 then 2 else 5, by decide⟩, fun _ => 9, by decide⟩

theorem witness_SkipOnKey :
    ((start.setReg 1 15).reg 1).toNat < 16 ∧ (withKey 15 start).keys.get ⟨15, by decide⟩ = true ∧
    start.keys.get ⟨15, by decide⟩ = false := by decide

theorem witness_KeyIndexFaultIsTaken : 15 < ((start.setReg 1 16).reg 1).toNat := by decide

theorem witness_WaitForKeyTakesLowestOrRearms :
    ((withKey 9 (withKey 7 start)).keys.get 7 = true ∧
      ∀ j : KeyIx, j.val < (7 : KeyIx).val → (withKey 9 (withKey 7 start)).keys.get j = false) ∧
    ∀ k : KeyIx, start.keys.get k = false := by decide

theorem witness_WriteTimersThenTick :
    (0xF015 : Word) &&& 0xF0FF = 0xF015 ∧ (0xF118 : Word) &&& 0xF0FF = 0xF018 ∧
    (placed 0xF015 start).running = some (.ldDtVx 0) ∧ (placed 0xF118 start).running = some (.ldStVx 1) := by decide

theorem witness_DecodeInvertsEncode :
    ((Instr.andReg 1 2).wf = true ∧ ({} : Params).andIsOr = false) ∧ (Instr.sys 0x123).wf = true ∧
    ∀ x y, Instr.sys 0x123 ≠ .andReg x y :=
  ⟨by decide, by decide, fun _ _ => nofun⟩

theorem witness_EncodeInvertsDecode :
    decode {} 0x8122 = .ok (.andReg 1 2) ∧ ({} : Params).andIsOr = false ∧
    decode { andIsOr := true } 0x8122 = .ok (.orReg 1 2) := by decide

/-- A word of each row, with some ignored bits set. -/
theorem witness_SpecWordsDecode :
    (0x012E : Word) &&& 0xF00F = 0x000E ∧ (0x2300 : Word) &&& 0xF000 = 0x2000 ∧
    (0x9120 : Word) &&& 0xF000 = 0x9000 ∧ (0xB300 : Word) &&& 0xF000 = 0xB000 ∧
    (0x8124 : Word) &&& 0xF00F = 0x8004 ∧ (0x8125 : Word) &&& 0xF00F = 0x8005 ∧
    (0x8156 : Word) &&& 0xF00F = 0x8006 ∧ (0x8127 : Word) &&& 0xF00F = 0x8007 ∧
    (0x810E : Word) &&& 0xF00F = 0x800E ∧ (0xC10F : Word) &&& 0xF000 = 0xC000 ∧
    (0xD125 : Word) &&& 0xF000 = 0xD000 ∧ (0xE11E : Word) &&& 0xF00F = 0xE00E ∧
    (0xE1F1 : Word) &&& 0xF00F = 0xE001 ∧ (0xF507 : Word) &&& 0xF0FF = 0xF007 ∧
    (0xF30A : Word) &&& 0xF0FF = 0xF00A ∧ (0xF21E : Word) &&& 0xF0FF = 0xF01E ∧
    (0xF029 : Word) &&& 0xF0FF = 0xF029 ∧ (0xF333 : Word) &&& 0xF0FF = 0xF033 ∧
    (0xF255 : Word) &&& 0xF0FF = 0xF055 ∧ (0xF265 : Word) &&& 0xF0FF = 0xF065 := by decide

/-- The refused request, ROMs of 3585, 3584 and 0 bytes, and addresses at the edges of the clauses. -/
theorem witness_ConstructionGivesCleanLaunch :
    ({ loadDelayIndexDefect := true } : Configuration).loadDelayIndexDefect = true ∧
    ({} : Configuration).loadDelayIndexDefect = false ∧
    3584 < (List.replicate 3585 (0 : Byte)).length ∧ (List.replicate 3584 (0 : Byte)).length ≤ 3584 ∧
    ([] : List Byte).length ≤ 3584 ∧ (0 < 80 ∧ 79 < 80) ∧ (0x04F < 0x050 ∧ 0x0A0 ≤ 0x0A0 ∧ 0x1FF < 0x200) := by
  simp only [List.length_replicate, List.length_nil]; decide

theorem witness_StepKeepsMemoryCanonical :
    ∃ t, MemoryCanonical (placed 0xF333 (start.setI 0x300)) ∧ step (placed 0xF333 (start.setI 0x300)) = .next t :=
  ⟨_, by unfold MemoryCanonical; decide, rfl⟩

/-- The highest PC, which faults, and a CALL at the highest address that can be fetched. -/
theorem witness_StepKeepsPcAndStackInRange :
    (∃ t, PcAndStackInRange (start.setPc 0x10FE) ∧ step (start.setPc 0x10FE) = .next t) ∧
    ∃ t, PcAndStackInRange (placed 0x2300 (start.setPc 0xFFE)) ∧ step (placed 0x2300 (start.setPc 0xFFE)) = .next t ∧
      (t.stack.get 0).toNat = 0x1000 :=
  ⟨⟨_, by unfold PcAndStackInRange; decide, rfl⟩, _, by unfold PcAndStackInRange; decide, rfl, by decide⟩

theorem witness_StepKeepsLatchConsistent :
    ∃ t, LatchConsistent (placed 0x00EE start) ∧ step (placed 0x00EE start) = .next t ∧ t.fault.isSome = true :=
  ⟨_, fun _ h => absurd h (by simp [placed, start, State.reset]), rfl, by decide⟩

theorem witness_LowMemoryIsProtected :
    ∃ t, (placed 0xF155 (withParams protect (start.setI 0x1FF))).params.lowmemWriteFault = true ∧
      step (placed 0xF155 (withParams protect (start.setI 0x1FF))) = .next t ∧ 0x1FF < 0x200 :=
  ⟨_, rfl, rfl, by decide⟩

theorem witness_FaultsArePrecise :
    ∃ t r, step (placed 0x00EE { start with dt := 5 }) = .next t ∧ t.fault = some r :=
  ⟨_, _, rfl, rfl⟩

theorem witness_OnlyTabledFaultsAreRaised :
    ∃ t r, start.fault = none ∧ exec (.ret 0x0E) start = .next t ∧ t.fault = some r :=
  ⟨_, _, rfl, rfl, rfl⟩

theorem witness_OnlyFaultedCoreStops :
    start.fault = none ∧
    ∃ r, (start.latch { kind := .keyIndex, pc := 0x200, opcode := none, addr := none, access := none }).fault =
      some r :=
  ⟨rfl, _, rfl⟩

/-- The last address that can be fetched; an instruction that completes, without and with stored inputs; one that
faults. -/
theorem witness_StepRunsDecodedInstruction :
    (∃ t, (placed 0x1200 (start.setPc 0xFFE)).fault = none ∧ (placed 0x1200 (start.setPc 0xFFE)).pc.toNat ≤ 0xFFE ∧
      decode {} (wordOfBytes ((placed 0x1200 (start.setPc 0xFFE)).byte 0xFFE)
        ((placed 0x1200 (start.setPc 0xFFE)).byte (0xFFE + 1))) = .ok (.jp 0x200) ∧
      exec (.jp 0x200) ((placed 0x1200 (start.setPc 0xFFE)).setPc (0xFFE + 2)) = .next t ∧ t.fault = none ∧
      t.pending = []) ∧
    (∃ t, exec (.jp 0x200) { start with pending := [⟨start.keys, 7⟩] } = .next t ∧ t.fault = none ∧
      t.pending = [⟨start.keys, 7⟩]) ∧
    ∃ t, exec (.ret 0x0E) start = .next t ∧ t.fault ≠ none :=
  ⟨⟨_, by decide, by decide, by decide, rfl, by decide, rfl⟩, ⟨_, rfl, rfl, rfl⟩, _, rfl, by decide⟩

theorem witness_FetchOutOfBoundsFaults :
    start.fault = none ∧ 0xFFE < (start.setPc 0xFFF).pc.toNat ∧ 0xFFE < (start.setPc 0x1000).pc.toNat := by decide

theorem witness_CompletedStepTicksTimers :
    (∃ t, step (placed 0xF015 start) = .next t ∧ t.fault = none ∧ (placed 0xF015 start).running = some (.ldDtVx 0)) ∧
    (∃ t, step (placed 0xF118 start) = .next t ∧ t.fault = none ∧ (placed 0xF118 start).running = some (.ldStVx 1)) ∧
    ∃ t, step (placed 0x8FF8 start) = .next t ∧ t.fault = none ∧ (placed 0x8FF8 start).running = none :=
  ⟨⟨_, rfl, by decide, by decide⟩, ⟨_, rfl, by decide, by decide⟩, _, rfl, by decide, by decide⟩

theorem witness_OnlyClsAndDrwMutateFramebuffer :
    (∃ t, step (placed 0x0120 (withPixel 5 5 start)) = .next t ∧
      Framebuffer.pixel t.fb 5 5 ≠ Framebuffer.pixel (placed 0x0120 (withPixel 5 5 start)).fb 5 5) ∧
    ∃ t, step (placed 0xD005 (start.setI 0x050)) = .next t ∧
      Framebuffer.pixel t.fb 0 0 ≠ Framebuffer.pixel (placed 0xD005 (start.setI 0x050)).fb 0 0 :=
  ⟨⟨_, rfl, by decide⟩, _, rfl, by decide⟩

theorem witness_OnlyBlockStoresWriteMemory :
    (∃ t, step (placed 0xF333 ((start.setReg 3 0xFF).setI 0x300)) = .next t ∧
      t.byte 0x302 ≠ (placed 0xF333 ((start.setReg 3 0xFF).setI 0x300)).byte 0x302) ∧
    ∃ t, step (placed 0xF155 ((start.setReg 1 9).setI 0xFFE)) = .next t ∧
      t.byte 0xFFF ≠ (placed 0xF155 ((start.setReg 1 9).setI 0xFFE)).byte 0xFFF :=
  ⟨⟨_, rfl, by decide⟩, _, rfl, by decide⟩

theorem witness_OnlyTheirInstructionsWriteIndexAndStack :
    (∃ t, step (placed 0xA300 start) = .next t ∧ t.i ≠ (placed 0xA300 start).i) ∧
    ∃ t, step (placed 0x2300 start) = .next t ∧ t.sp ≠ (placed 0x2300 start).sp ∧
      t.stack ≠ (placed 0x2300 start).stack :=
  ⟨⟨_, rfl, by decide⟩, _, rfl, by decide, by decide⟩

theorem witness_OnlyDestinationsAndFlagsChange :
    ∃ t, step (placed 0x8124 ((start.setReg 1 0xFF).setReg 2 1)) = .next t ∧
      t.reg 1 ≠ (placed 0x8124 ((start.setReg 1 0xFF).setReg 2 1)).reg 1 ∧
      t.reg Reg.VF ≠ (placed 0x8124 ((start.setReg 1 0xFF).setReg 2 1)).reg Reg.VF :=
  ⟨_, rfl, by decide, by decide⟩

theorem witness_InputsAndParametersAreReadOnly :
    (∃ t, exec (.rnd 1 0xFF) start = .next t) ∧ ∃ t, step start = .next t :=
  ⟨⟨_, rfl⟩, _, rfl⟩

/-- A return, a taken skip and a re-armed wait, each without a fault. -/
theorem witness_HandlersLeavePcInOneOfFourPlaces :
    start.fault = none ∧ (∃ t, exec (.ret 0x0E) (withSp 1 start) = .next t ∧ t.fault = none) ∧
    (∃ t, exec (.seImm 0 0) start = .next t ∧ t.fault = none) ∧
    ∃ t, exec (.ldVxK 3) start = .next t ∧ t.fault = none ∧ t.pc = start.pc - 2 :=
  ⟨rfl, ⟨_, rfl, by decide⟩, ⟨_, rfl, by decide⟩, _, rfl, by decide, by decide⟩

end Sys2Proof.Tests
end

section
/-! PROOFS. Who writes which part of the state (10_state.md): what one step can have done, said once and without the
instruction's operands, and which instructions have a given part of the state in their footprint. -/

namespace Sys2Proof.Machine

/-! ## What an instruction that did not fault has done -/

/-- An instruction that leaves the latch clear ran to its end. -/
theorem completes_of_no_fault {i : Instr} {s t : State} (h : exec i s = .next t) (ht : t.fault = none) :
    Completes i s t := by
  rcases exec_cases h with hc | ⟨kind, addr, access, -, -, rfl⟩
  · exact hc
  · cases ht

@[simp] theorem footprint_latch (i : Instr) (s : State) : (footprint i s).latch = false := by cases i <;> rfl

@[simp] theorem footprint_inputs (i : Instr) (s : State) : (footprint i s).inputs = false := by cases i <;> rfl

/-- An instruction that completes keeps the latch. -/
theorem Completes.fault_eq {i : Instr} {s t : State} (h : Completes i s t) : t.fault = s.fault :=
  h.frame.latch (footprint_latch i s)

/-- Only CLS and DRW have the framebuffer in their footprint. -/
theorem footprint_display {i : Instr} {s : State} (h : (footprint i s).display ≠ false) :
    (∃ pad, i = .cls pad) ∨ ∃ x y n, i = .drw x y n := by
  cases i
  case cls pad => exact .inl ⟨pad, rfl⟩
  case drw x y n => exact .inr ⟨x, y, n, rfl⟩
  all_goals exact absurd rfl h

/-- Only LD I, ADD I and LD F have I in their footprint. -/
theorem footprint_index {i : Instr} {s : State} (h : (footprint i s).index ≠ false) :
    (∃ nnn, i = .ldI nnn) ∨ ∃ x, i = .addI x ∨ i = .ldF x := by
  cases i
  case ldI nnn => exact .inl ⟨nnn, rfl⟩
  case addI x => exact .inr ⟨x, .inl rfl⟩
  case ldF x => exact .inr ⟨x, .inr rfl⟩
  all_goals exact absurd rfl h

/-- Only CALL and RET have the stack and SP in their footprint. -/
theorem footprint_stack {i : Instr} {s : State} (h : (footprint i s).stack ≠ false) :
    (∃ nnn, i = .call nnn) ∨ ∃ pad, i = .ret pad := by
  cases i
  case call nnn => exact .inl ⟨nnn, rfl⟩
  case ret pad => exact .inr ⟨pad, rfl⟩
  all_goals exact absurd rfl h

/-- The registers in an instruction's footprint are its destinations and, if it defines a flag, VF. -/
theorem footprint_regs {i : Instr} {s : State} {k : Reg} (h : k ∈ (footprint i s).regs) :
    k ∈ destinations i ∨ (k = Reg.VF ∧ writesFlag i = true) := by
  cases i
  case drw => exact .inr ⟨List.mem_singleton.1 h, rfl⟩
  case addReg | sub | subn | shr | shl =>
    rcases List.mem_pair.1 h with rfl | rfl
    · exact .inl (List.mem_singleton_self _)
    · exact .inr ⟨rfl, rfl⟩
  all_goals exact .inl h

/-! ## CALL and RET -/

/-- A CALL that does not fault pushed PC and jumped (41_control_flow.md R88). -/
theorem exec_call_completed {nnn : BitVec 12} {s t : State} (h : exec (.call nnn) s = .next t)
    (ht : t.fault = none) : ∃ hs : s.sp.val < 16,
      t.stack = s.stack.set s.sp.val s.pc ∧ t.sp.val = s.sp.val + 1 ∧ t.pc = zext16 nnn := by
  simp only [exec, execCall] at h
  split at h
  · cases h; cases ht
  · rename_i u hu
    obtain ⟨hs, rfl⟩ := State.push_eq_some hu
    cases h
    exact ⟨hs, rfl, rfl, rfl⟩

/-- A RET that does not fault took PC from the top entry and uncounted it, and left the entries (41_control_flow.md
R86). -/
theorem exec_ret_completed {pad : Byte} {s t : State} (h : exec (.ret pad) s = .next t) (ht : t.fault = none) :
    ∃ k : Fin 16, s.sp.val = k.val + 1 ∧ t.pc = s.stack.get k ∧ t.sp.val = k.val ∧ t.stack = s.stack := by
  simp only [exec, execRet] at h
  split at h
  · cases h; cases ht
  · rename_i w u hu
    obtain ⟨k, hk, hs, rfl, rfl⟩ := State.pop_eq_some hu
    cases h
    exact ⟨⟨k, hk⟩, hs, rfl, rfl, rfl⟩

/-- An instruction that does not fault leaves the entries and counts none more, or pushes PC. -/
theorem stack_after_exec {i : Instr} {s t : State} (h : exec i s = .next t) (ht : t.fault = none) :
    (t.stack = s.stack ∧ t.sp.val ≤ s.sp.val) ∨
    ∃ hs : s.sp.val < 16, t.stack = s.stack.set s.sp.val s.pc ∧ t.sp.val = s.sp.val + 1 := by
  by_cases hp : (footprint i s).stack = false
  · obtain ⟨hstack, hsp⟩ := (completes_of_no_fault h ht).frame.stack hp
    exact .inl ⟨hstack, hsp ▸ le_rfl⟩
  · rcases footprint_stack hp with ⟨nnn, rfl⟩ | ⟨pad, rfl⟩
    · obtain ⟨hs, hstack, hsp, -⟩ := exec_call_completed h ht
      exact .inr ⟨hs, hstack, hsp⟩
    · obtain ⟨k, hs, -, hsp, hstack⟩ := exec_ret_completed h ht
      exact .inl ⟨hstack, by omega⟩

/-! ## Where a handler leaves PC -/

/-- A skip leaves PC or adds 2 to it (41_control_flow.md R93). -/
theorem pc_skipIf_cases (s : State) (c : Bool) : (s.skipIf c).pc = s.pc ∨ (s.skipIf c).pc = s.pc + 2 := by
  cases c
  · exact .inl rfl
  · exact .inr rfl

/-- Settles O60: the instructions with PC outside their footprint leave it; each other one is looked up. -/
theorem handlersLeavePcInOneOfFourPlaces : Obligations.HandlersLeavePcInOneOfFourPlaces := by
  intro i s t _ h ht
  have hpc : (footprint i s).pc = false → t.pc = s.pc := (completes_of_no_fault h ht).frame.pc
  cases i
  case jp nnn => cases h; exact toNat_zext16 nnn
  case jpV0 nnn => cases h; exact toNat_offsetTarget s nnn
  case call nnn =>
    obtain ⟨-, -, -, hnnn⟩ := exec_call_completed h ht
    exact hnnn ▸ toNat_zext16 nnn
  case ret pad =>
    obtain ⟨k, hk, htop, -⟩ := exec_ret_completed h ht
    exact ⟨k, hk, htop⟩
  case seImm => cases h; exact pc_skipIf_cases s _
  case sneImm => cases h; exact pc_skipIf_cases s _
  case seReg => cases h; exact pc_skipIf_cases s _
  case sneReg => cases h; exact pc_skipIf_cases s _
  case skp =>
    simp only [exec, execSkp] at h
    split at h <;> cases h
    · cases ht
    · exact pc_skipIf_cases s _
  case sknp =>
    simp only [exec, execSknp] at h
    split at h <;> cases h
    · cases ht
    · exact pc_skipIf_cases s _
  case ldVxK =>
    simp only [exec, execLdVxK] at h
    split at h <;> cases h
    · exact .inl rfl
    · exact .inr rfl
  all_goals exact hpc rfl

/-- Whatever the instruction, a handler that does not fault moves PC by 2 at most, or to a counted stack entry, or to
a target of at most 0x10FE (41_control_flow.md R95). -/
theorem pc_after_exec {i : Instr} {s t : State} (hs : s.fault = none) (h : exec i s = .next t)
    (ht : t.fault = none) :
    t.pc = s.pc ∨ t.pc = s.pc + 2 ∨ t.pc = s.pc - 2 ∨ t.pc.toNat ≤ 0x10FE ∨
      ∃ k : Fin 16, k.val < s.sp.val ∧ t.pc = s.stack.get k := by
  have place := handlersLeavePcInOneOfFourPlaces i s t hs h ht
  cases i
  case jp nnn => have := nnn.isLt; simp only at place; omega
  case call nnn => have := nnn.isLt; simp only at place; omega
  case jpV0 nnn => have := nnn.isLt; have := (s.reg Reg.V0).isLt; simp only at place; omega
  case ret pad =>
    obtain ⟨k, hk, htop⟩ := place
    exact .inr (.inr (.inr (.inr ⟨k, by omega, htop⟩)))
  all_goals simp only at place; tauto

/-! ## What a step has done -/

/-- What a step that answers a next state has done (30_encoding.md R70). -/
inductive StepOutcome (s : State) : State → Prop where
  /-- It set the latch and changed nothing else (60_exceptions.md R140). -/
  | latched (r : FaultRecord) : StepOutcome s (s.latch r)
  /-- It ran a word that matches no row (30_encoding.md R66). -/
  | noop (hpc : s.pc.toNat ≤ 0xFFE) : StepOutcome s s.advancePc.tick.nextInput
  /-- It ran an instruction to its end. -/
  | completed {i : Instr} {u : State} (hpc : s.pc.toNat ≤ 0xFFE) (hi : s.running = some i)
      (hu : exec i s.advancePc = .next u) (hf : u.fault = none) : StepOutcome s u.tick.nextInput

/-- A word is fetched only from a PC of at most 0xFFE (20_memory.md R49). -/
theorem State.pc_le_of_fetch {s : State} {w : Word} (h : s.fetch = some w) : s.pc.toNat ≤ 0xFFE := by
  rw [State.fetch_eq] at h
  by_contra hpc
  rw [if_neg hpc] at h
  cases h

/-- Every step has one of the three outcomes. -/
theorem step_outcome {s t : State} (h : step s = .next t) : StepOutcome s t := by
  obtain ⟨hs, ⟨-, h⟩ | ⟨w, i, u, hw, hi, hu, ht⟩ | ⟨w, e, hw, -, rfl⟩⟩ := step_cases h
  · cases h; exact .latched _
  · rcases exec_cases hu with hc | ⟨kind, addr, access, -, -, rfl⟩
    · have hf : u.fault = none := hc.fault_eq.trans hs
      rcases ht with ⟨-, rfl⟩ | ⟨hf', -⟩
      · exact .completed (State.pc_le_of_fetch hw) (State.running_of_decode hs hw hi) hu hf
      · exact absurd hf hf'
    · rcases ht with ⟨hf, -⟩ | ⟨-, rfl⟩
      · cases hf
      · rw [State.rewindPc_advancePc]; exact .latched _
  · exact .noop (State.pc_le_of_fetch hw)

/-- A part of the state that the latch, the advance of PC, the tick and the inputs do not touch is changed by a step
only through an instruction that runs to its end. -/
theorem exists_running_of_changed {α : Type} {view : State → α} {s t : State}
    (h : step s = .next t) (hne : view t ≠ view s)
    (hlatch : ∀ s r, view (State.latch s r) = view s := by simp)
    (hadvance : ∀ s, view (State.advancePc s) = view s := by simp)
    (hnext : ∀ s, view (State.nextInput (State.tick s)) = view s := by simp) :
    ∃ i u, s.running = some i ∧ exec i s.advancePc = .next u ∧ u.fault = none ∧
      Completes i s.advancePc u ∧ view u ≠ view s.advancePc := by
  cases step_outcome h with
  | latched r => exact absurd (hlatch s r) hne
  | noop => exact absurd ((hnext _).trans (hadvance s)) hne
  | @completed i u _ hi hu hf =>
    rw [hnext, ← hadvance s] at hne
    exact ⟨i, u, hi, hu, hf, completes_of_no_fault hu hf, hne⟩

/-! ## The obligations on who writes what -/

/-- Settles O55, by the footprints. -/
theorem onlyClsAndDrwMutateFramebuffer : Obligations.OnlyClsAndDrwMutateFramebuffer := by
  rintro s t h ⟨r, c, hne⟩
  obtain ⟨i, u, hi, -, -, hc, hne⟩ :=
    exists_running_of_changed (view := fun s => Framebuffer.pixel s.fb r c) h hne
  rw [hi]
  simpa using footprint_display fun hd => hne (hc.frame.display hd r c)

/-- Settles O57, by the footprints; that RET leaves the entries is `exec_ret_completed`. -/
theorem onlyTheirInstructionsWriteIndexAndStack : Obligations.OnlyTheirInstructionsWriteIndexAndStack := by
  intro s t h
  refine ⟨fun hne => ?_, fun hne => ?_, fun hne => ?_⟩
  · obtain ⟨i, u, hi, -, -, hc, hne⟩ := exists_running_of_changed (view := State.i) h hne
    rw [hi]
    simpa using footprint_index fun hd => hne (hc.frame.index hd)
  · obtain ⟨i, u, hi, -, -, hc, hne⟩ := exists_running_of_changed (view := State.sp) h hne
    rw [hi]
    simpa using footprint_stack fun hd => hne (hc.frame.stack hd).2
  · obtain ⟨i, u, hi, hu, hf, hc, hne⟩ := exists_running_of_changed (view := State.stack) h hne
    rcases footprint_stack fun hd => hne (hc.frame.stack hd).1 with ⟨nnn, rfl⟩ | ⟨pad, rfl⟩
    · exact ⟨nnn, hi⟩
    · obtain ⟨-, -, -, -, hstack⟩ := exec_ret_completed hu hf
      exact absurd hstack hne

/-- Settles O58, by the footprints. -/
theorem onlyDestinationsAndFlagsChange : Obligations.OnlyDestinationsAndFlagsChange := by
  intro s t k h hne
  obtain ⟨i, u, hi, -, -, hc, hne⟩ := exists_running_of_changed (view := fun s => s.reg k) h hne
  exact ⟨i, hi, footprint_regs (not_imp_comm.1 (hc.frame.regs k) hne)⟩

/-- Settles O59: no footprint has the inputs, and the parameters are in every frame. -/
theorem inputsAndParametersAreReadOnly : Obligations.InputsAndParametersAreReadOnly := by
  refine ⟨fun i s t h => ?_, fun s t h => ?_⟩
  · rcases exec_cases h with hc | ⟨kind, addr, access, -, -, rfl⟩
    · exact hc.frame.inputs (footprint_inputs i s)
    · exact ⟨rfl, rfl, rfl, rfl⟩
  · by_contra hne
    obtain ⟨i, u, -, -, -, hc, hne⟩ := exists_running_of_changed (view := State.params) h hne
    exact hne hc.frame.params

/-! ## The range of PC and of the return addresses -/

/-- An instruction that ran from a fetched word keeps PC and the stack in range. -/
theorem exec_keeps_pcAndStackInRange {i : Instr} {s u : State} (hs : PcAndStackInRange s)
    (hpc : s.pc.toNat ≤ 0xFFE) (hfault : s.fault = none) (h : exec i s.advancePc = .next u) (hf : u.fault = none) :
    PcAndStackInRange u := by
  obtain ⟨-, hstack⟩ := hs
  have hadv : (s.pc + 2).toNat = s.pc.toNat + 2 := by bv_omega
  constructor
  · rcases pc_after_exec (s := s.advancePc) hfault h hf with e | e | e | hle | ⟨k, hk, e⟩
    · rw [e, State.advancePc_pc]; omega
    · rw [e, State.advancePc_pc]; bv_omega
    · rw [e, State.advancePc_pc]; bv_omega
    · exact hle
    · have := hstack k hk
      rw [e, State.advancePc_stack]; omega
  · intro k hk
    rcases stack_after_exec h hf with ⟨e, hsp⟩ | ⟨hlt, e, hsp⟩
    · rw [e]; exact hstack k (Nat.lt_of_lt_of_le hk hsp)
    · simp only [State.advancePc_sp, State.advancePc_stack, State.advancePc_pc] at hlt e hsp
      rw [e, Vector.get_eq_getElem, Vector.getElem_set]
      split
      · omega
      · exact hstack k (by omega)

/-- Settles O46: a step that did not fault fetched at 0xFFE or below, so a pushed address is at most 0x1000 and a
skip ends at most at 0x1002; the rest are `pc_after_exec` and the invariant itself. -/
theorem stepKeepsPcAndStackInRange : Obligations.StepKeepsPcAndStackInRange := by
  intro s t hs h
  obtain ⟨hfault, -⟩ := step_cases h
  cases step_outcome h with
  | latched r => exact hs
  | noop hpc =>
    have hadv : (s.pc + 2).toNat ≤ 0x10FE := by bv_omega
    simpa [PcAndStackInRange] using And.intro hadv hs.2
  | completed hpc _ hu hf =>
    simpa [PcAndStackInRange] using exec_keeps_pcAndStackInRange hs hpc hfault hu hf

end Sys2Proof.Machine
end

section
/-! PROOFS. Construction, the reset state and the pixel buffer (10_state.md R28, R34; 70_reset_and_hazards.md). -/

namespace Sys2Proof.Machine

/-- Settles O44. -/
theorem resetMeetsInvariants : Obligations.ResetMeetsInvariants := by
  refine ⟨Memory.wf_nil, ⟨by decide, fun k hk => ?_⟩, fun r hr => ?_⟩
  · exact absurd hk (Nat.not_lt_zero _)
  · cases hr

/-! ## Construction -/

theorem construct_refused {c : Configuration} (h : c.loadDelayIndexDefect = true) (rom : List Byte) :
    construct c rom = .error .refusedConfiguration := by
  simp [construct, h]

theorem construct_romLoad {c : Configuration} {rom : List Byte} (h : c.loadDelayIndexDefect = false)
    (hrom : 3584 < rom.length) : construct c rom = .error (.romLoad rom.length) := by
  simp [construct, h, hrom]

theorem construct_ok {c : Configuration} {rom : List Byte} (h : c.loadDelayIndexDefect = false)
    (hrom : rom.length ≤ 3584) :
    construct c rom = .ok { State.reset with params := c.params, mem := constructMemory c.font rom } := by
  simp [construct, h, Nat.not_lt.2 hrom]

/-- The ROM stands at 0x200. -/
theorem read_constructMemory_rom (font : Vector Byte fontLen) {rom : List Byte} {k : Nat} (h : k < rom.length) :
    (constructMemory font rom).read (0x200 + k) = rom[k] :=
  Memory.read_writeBytes_inside h

/-- FONT stands at 0x050, and the ROM does not overwrite it. -/
theorem read_constructMemory_font (font : Vector Byte fontLen) (rom : List Byte) {k : Nat} (h : k < 80) :
    (constructMemory font rom).read (0x050 + k) = font[k] := by
  refine (Memory.read_writeBytes_outside (.inl (by simp only [programBase]; omega))).trans ?_
  refine (Memory.read_writeBytes_inside (bs := font.toList) (by simpa using h)).trans ?_
  simp

theorem Memory.unlisted_outside_font {a : Nat} (h : a < 0x050 ∨ 0x0A0 ≤ a) : Memory.unlisted a = 0 :=
  dif_neg (by simp only [fontBase, fontLen]; omega)

/-- Outside FONT and the ROM memory is 0. -/
theorem read_constructMemory_zero (font : Vector Byte fontLen) (rom : List Byte) {a : Nat}
    (h : a < 0x050 ∨ (0x0A0 ≤ a ∧ a < 0x200) ∨ 0x200 + rom.length ≤ a) :
    (constructMemory font rom).read a = 0 := by
  refine (Memory.read_writeBytes_outside (by simp only [programBase]; omega)).trans ?_
  refine (Memory.read_writeBytes_outside (by simp only [fontBase, Vector.length_toList, fontLen]; omega)).trans ?_
  exact Memory.unlisted_outside_font (by omega)

/-- Writing what every address of a block reads as leaves memory the canonical list it was. -/
theorem Memory.writeBytes_eq_self {m : Memory} {a : Nat} {bs : List Byte} (hm : m.wf)
    (ha : a + bs.length ≤ memSize) (h : ∀ k (hk : k < bs.length), m.read (a + k) = bs[k]) :
    m.writeBytes a bs = m := by
  refine Memory.eq_of_read_eq (Memory.wf_writeBytes ha hm) hm fun k => ?_
  by_cases hk : a ≤ k ∧ k - a < bs.length
  · obtain ⟨j, rfl⟩ := Nat.exists_eq_add_of_le hk.1
    have hj : j < bs.length := by omega
    rw [Memory.read_writeBytes_inside hj, h j hj]
  · exact Memory.read_writeBytes_outside (by omega)

/-- The default FONT is what its window reads as unlisted, so a core with it and no ROM lists no cell. -/
theorem constructMemory_default : constructMemory defaultFont [] = [] := by
  rw [constructMemory, Memory.writeBytes]
  refine Memory.writeBytes_eq_self Memory.wf_nil (by simp [fontBase, fontLen, memSize]) fun k hk => ?_
  have hk : fontBase ≤ fontBase + k ∧ fontBase + k - fontBase < fontLen := by simpa using hk
  rw [Memory.read_nil, Memory.unlisted, dif_pos hk]
  simp

/-- Settles O43: the fields are those of the reset state, the bytes the three facts about `constructMemory`. -/
theorem constructionGivesCleanLaunch : Obligations.ConstructionGivesCleanLaunch := by
  refine ⟨fun c rom h => construct_refused h rom, fun c rom => construct_romLoad, fun c rom h hrom => ?_, ?_⟩
  · refine ⟨_, construct_ok h hrom, rfl, rfl, ?_, rfl, rfl, rfl, ?_, ?_, rfl, rfl,
      fun k => read_constructMemory_font c.font rom, fun k => read_constructMemory_rom c.font,
      fun a => read_constructMemory_zero c.font rom⟩
    · intro k; simp [State.reg, State.reset, Vector.get_eq_getElem]
    · intro k; simp [State.reset, Vector.get_eq_getElem]
    · exact Framebuffer.pixel_clear
  · rw [construct_ok rfl (by simp), constructMemory_default]
    rfl

/-! ## The pixel buffer -/

/-- Element `n * r + c` of equally long blocks laid end to end is element c of block r. -/
theorem getElem?_flatMap_blocks {α β : Type} {f : α → List β} {n : Nat} (hf : ∀ a, (f a).length = n)
    (l : List α) (r : Nat) {c : Nat} (hc : c < n) : (l.flatMap f)[n * r + c]? = l[r]?.bind fun a => (f a)[c]? := by
  induction l generalizing r with
  | nil => simp
  | cons a l ih =>
    rw [List.flatMap_cons]
    cases r with
    | zero => rw [List.getElem?_append_left (by simpa [hf] using hc)]; simp
    | succ r =>
      have e : n * (r + 1) + c = n + (n * r + c) := by ring
      rw [List.getElem?_append_right (by rw [hf]; omega), hf, e, Nat.add_sub_cancel_left, ih]
      rfl

theorem State.length_pixelBuffer (s : State) : s.pixelBuffer.length = 2048 := by
  simp [State.pixelBuffer, List.length_flatMap, fbRows, fbCols]

/-- The buffer is row-major (10_state.md R28). -/
theorem State.getElem?_pixelBuffer (s : State) (r : Fin fbRows) (c : Fin fbCols) :
    s.pixelBuffer[64 * r.val + c.val]? =
      some (pixelWord Config.pixelWordBits (Framebuffer.pixel s.fb r c)) := by
  rw [State.pixelBuffer, getElem?_flatMap_blocks (fun row => by simp) _ _ c.isLt]
  simp [Framebuffer.pixel, Vector.get_eq_getElem]

/-- Settles O5: the buffer is 32 blocks of 64 words, one for each row. -/
theorem pixelBufferIsRowMajor : Obligations.PixelBufferIsRowMajor :=
  fun s => ⟨s.length_pixelBuffer, s.getElem?_pixelBuffer⟩

end Sys2Proof.Machine
end

section
/-! PROOFS. Memory (20_memory.md): what a step and a block store do to it, the faults of the block accesses, and the
fetch of stored bytes. -/

namespace Sys2Proof.Machine

/-! ## What a step does to memory -/

/-- A step leaves memory as it was, or stores one block at I, inside memory and not a reserved write (20_memory.md
R45, R48). -/
theorem mem_after_step {s t : State} (h : step s = .next t) :
    t.mem = s.mem ∨ ∃ bs, t.mem = s.mem.writeBytes s.i.toNat bs ∧ s.i.toNat + bs.length ≤ memSize ∧
      ¬ (s.params.lowmemWriteFault = true ∧ s.i.toNat < programBase) := by
  cases step_outcome h with
  | latched r => exact .inl rfl
  | noop => exact .inl (by simp)
  | completed _ _ hu hf => simpa using (completes_of_no_fault hu hf).mem

/-- Settles O45: a block inside memory keeps the canonical form. -/
theorem stepKeepsMemoryCanonical : Obligations.StepKeepsMemoryCanonical := by
  intro s t hs h
  unfold MemoryCanonical
  rcases mem_after_step h with hm | ⟨bs, hm, hb, -⟩
  · rw [hm]; exact hs
  · rw [hm]; exact Memory.wf_writeBytes hb hs

/-- Settles O48: a block that is not a reserved write starts at 0x200 or above. -/
theorem lowMemoryIsProtected : Obligations.LowMemoryIsProtected := by
  intro s t a hp h ha
  unfold State.byte
  rcases mem_after_step h with hm | ⟨bs, hm, -, hr⟩
  · rw [hm]
  · have hi : programBase ≤ s.i.toNat := Nat.le_of_not_lt fun hi => hr ⟨hp, hi⟩
    rw [hm]
    exact Memory.read_writeBytes_outside (.inl (Nat.lt_of_lt_of_le ha hi))

/-- Only LD B and LD [I] have bytes of memory in their footprint, each its block. -/
theorem footprint_bytes {i : Instr} {s : State} {a : Nat}
    (h : ¬ (a < (footprint i s).storeBase ∨ (footprint i s).storeBase + (footprint i s).stored ≤ a)) :
    (∃ x, i = .ldB x ∧ s.i.toNat ≤ a ∧ a ≤ s.i.toNat + 2) ∨
    ∃ x, i = .ldMemVx x ∧ s.i.toNat ≤ a ∧ a ≤ s.i.toNat + x.val := by
  cases i
  case ldB x => simp only [footprint] at h; exact .inl ⟨x, rfl, by omega, by omega⟩
  case ldMemVx x => simp only [footprint] at h; exact .inr ⟨x, rfl, by omega, by omega⟩
  all_goals exact absurd (.inr (Nat.zero_le a)) h

/-- Settles O56, by the footprints. -/
theorem onlyBlockStoresWriteMemory : Obligations.OnlyBlockStoresWriteMemory := by
  intro s t a h hne
  obtain ⟨i, u, hi, -, -, hc, hne⟩ := exists_running_of_changed (view := fun s => s.byte a) h hne
  rw [hi]
  simpa using footprint_bytes fun ha => hne (hc.frame.bytes a ha)

/-! ## Faults -/

/-- Settles O53. -/
theorem fetchOutOfBoundsFaults : Obligations.FetchOutOfBoundsFaults := by
  intro s hs hpc
  have hw : s.fetch = none := by rw [State.fetch_eq, if_neg (Nat.not_le_of_lt hpc)]
  exact ⟨_, step_of_no_fetch hs hw, rfl, changesOnly_latch rfl s _⟩

/-- A fault puts PC back and sets the latch, and changes nothing else (60_exceptions.md R140). -/
theorem changesOnly_raise {f : Footprint} (hp : f.pc = true) (hl : f.latch = true) (s : State) (r : FaultRecord) :
    ChangesOnly f s (s.rewindPc.latch r) :=
  (changesOnly_setPc hp s _).trans (changesOnly_latch hl _ r)

theorem storeBlock_of_outside {bs : List Byte} {s : State} (h : memSize ≤ s.i.toNat + bs.length - 1) (i : Instr) :
    storeBlock i bs s = raise i .memoryBounds (some (max s.i.toNat memSize)) (some .write) s := by
  rw [storeBlock, State.dataAddress, memWrite_of_outside h]
  rfl

theorem storeBlock_of_reserved {bs : List Byte} {s : State} (h : s.i.toNat + bs.length - 1 < memSize)
    (hp : s.params.lowmemWriteFault = true) (ha : s.i.toNat < programBase) (i : Instr) :
    storeBlock i bs s = raise i .reservedWrite (some s.i.toNat) (some .write) s := by
  rw [storeBlock, State.dataAddress, memWrite_of_reserved h hp ha]
  rfl

theorem exec_ldVxMem_of_outside {x : Reg} {s : State} (h : memSize ≤ s.i.toNat + (x.val + 1) - 1) :
    exec (.ldVxMem x) s = raise (.ldVxMem x) .memoryBounds (some (max s.i.toNat memSize)) (some .read) s := by
  rw [exec, execLdVxMem, State.dataAddress, memRead_of_outside (Nat.succ_pos _) h]
  rfl

theorem exec_drw_of_outside {x y : Reg} {n : BitVec 4} {s : State} (hn : 1 ≤ n.toNat)
    (h : memSize ≤ s.i.toNat + n.toNat - 1) :
    exec (.drw x y n) s = raise (.drw x y n) .memoryBounds (some (max s.i.toNat memSize)) (some .read) s := by
  rw [exec, execDrw, State.dataAddress, memRead_of_outside hn h]
  rfl

/-- An instruction that raises a fault latches the record and puts PC back, and nothing else changes
(60_exceptions.md R140, R141). -/
theorem fault_of_exec_eq_raise {i : Instr} {kind : FaultKind} {addr : Option Nat} {access : Option Access} {s : State}
    (h : exec i s = raise i kind addr access s) :
    ∃ t, exec i s = .next t ∧
      t.fault = some { kind := kind, pc := s.pc - 2, opcode := some (encode i), addr := addr, access := access } ∧
      t.pc = s.pc - 2 ∧ ChangesOnly { pc := true, latch := true } s t :=
  ⟨_, h.trans (raise_eq i kind addr access s), rfl, rfl, changesOnly_raise rfl rfl s _⟩

/-- The two faults of a block store (20_memory.md R48). A reserved block starts so low that it ends inside memory. -/
theorem storeBlock_faults {i : Instr} {s : State} {bs : List Byte} (hlen : bs.length ≤ 16)
    (he : exec i s = storeBlock i bs s) :
    (4096 ≤ s.i.toNat + bs.length - 1 →
      exec i s = raise i .memoryBounds (some (max s.i.toNat 4096)) (some .write) s) ∧
    (s.params.lowmemWriteFault = true → s.i.toNat < 0x200 →
      exec i s = raise i .reservedWrite (some s.i.toNat) (some .write) s) :=
  ⟨fun h => he.trans (storeBlock_of_outside h i),
    fun hp ha => he.trans (storeBlock_of_reserved (by simp only [memSize]; omega) hp ha i)⟩

/-- Settles O32: in each of the four cases the meaning raises, and `fault_of_exec_eq_raise` says what that does. -/
theorem blockAccessFaultsAreTaken : Obligations.BlockAccessFaultsAreTaken := by
  rintro i s bytes access
    (⟨x, rfl, rfl, rfl⟩ | ⟨x, rfl, rfl, rfl⟩ | ⟨x, rfl, rfl, rfl⟩ | ⟨x, y, n, rfl, rfl, hn, rfl⟩)
  · obtain ⟨hbounds, hreserved⟩ := storeBlock_faults (i := .ldB x) (bs := bcdDigits (s.reg x)) (by simp) rfl
    exact ⟨fun h => fault_of_exec_eq_raise (hbounds h), fun _ hp ha => fault_of_exec_eq_raise (hreserved hp ha)⟩
  · obtain ⟨hbounds, hreserved⟩ := storeBlock_faults (i := .ldMemVx x) (bs := s.regBlock x)
      (by rw [State.length_regBlock]; exact x.isLt) rfl
    rw [State.length_regBlock] at hbounds
    exact ⟨fun h => fault_of_exec_eq_raise (hbounds h), fun _ hp ha => fault_of_exec_eq_raise (hreserved hp ha)⟩
  · exact ⟨fun h => fault_of_exec_eq_raise (exec_ldVxMem_of_outside h), nofun⟩
  · exact ⟨fun h => fault_of_exec_eq_raise (exec_drw_of_outside hn h), nofun⟩

/-! ## Fetching stored bytes -/

theorem toNat_wordOfBytes (hi lo : Byte) : (wordOfBytes hi lo).toNat = 256 * hi.toNat + lo.toNat := by
  rw [wordOfBytes, BitVec.toNat_append, ← Nat.shiftLeft_add_eq_or_of_lt lo.isLt, Nat.shiftLeft_eq]
  omega

/-- The digits of R121 are the bytes of the block that LD B stores. -/
theorem eq_getElem_bcdDigits {b : Byte} {stored : Nat → Byte} (h0 : (stored 0).toNat = b.toNat / 100)
    (h1 : (stored 1).toNat = b.toNat / 10 % 10) (h2 : (stored 2).toNat = b.toNat % 10) (k : Nat)
    (hk : k < (bcdDigits b).length) : stored k = (bcdDigits b)[k] := by
  have hb := b.isLt
  match k, hk with
  | 0, _ => exact BitVec.eq_of_toNat_eq (h0.trans (Nat.mod_eq_of_lt (by omega)).symm)
  | 1, _ => exact BitVec.eq_of_toNat_eq (h1.trans (Nat.mod_eq_of_lt (by omega)).symm)
  | 2, _ => exact BitVec.eq_of_toNat_eq (h2.trans (Nat.mod_eq_of_lt (by omega)).symm)

/-- The registers of R122 are the bytes of the block that LD [I], Vx stores. -/
theorem eq_getElem_regBlock {s : State} {x : Reg} {stored : Nat → Byte}
    (h : ∀ k : Reg, k.val ≤ x.val → stored k.val = s.reg k) (k : Nat) (hk : k < (s.regBlock x).length) :
    stored k = (s.regBlock x)[k] := by
  rw [State.getElem_regBlock]
  rw [State.length_regBlock] at hk
  exact h ⟨k, by omega⟩ (Nat.le_of_lt_succ hk)

/-- Settles O34: the store leaves the block over the old memory (`byte_storeBlock`), and the fetch reads two bytes of
it. -/
theorem storedBytesAreFetched : Obligations.StoredBytesAreFetched := by
  intro i bytes stored s t u hi h ht hpc hhi hlo
  have hbyte : ∀ a, t.byte a = byteOver s s.dataAddress bytes stored a := by
    rcases hi with ⟨x, rfl, rfl, h0, h1, h2⟩ | ⟨x, rfl, rfl, hregs⟩
    · exact byte_storeBlock (bs := bcdDigits (s.reg x)) h ht stored (eq_getElem_bcdDigits h0 h1 h2)
    · rw [← State.length_regBlock s x]
      exact byte_storeBlock h ht stored (eq_getElem_regBlock hregs)
  refine ⟨_, by rw [State.fetch_eq, if_pos hpc], ?_⟩
  rw [toNat_wordOfBytes, hhi, hlo, hbyte, hbyte]

end Sys2Proof.Machine
end

section
/-! PROOFS. The decoder and the encoder (30_encoding.md R64 to R67): they invert each other, which words are SYS or no
instruction at all, and the rows of the opcode map. -/

namespace Sys2Proof.Machine

/-! ## Decoding an encoded instruction -/

/-- Settles O40: each word's fields are the operands it was built from, so the tables of R64 find the row again. SYS
needs its operand's low nibble (the other two rows of category 0 take 0x0 and 0xE), and AND needs the parameter. -/
theorem decodeInvertsEncode : Obligations.DecodeInvertsEncode := by
  intro p i hwf hand
  cases i
  case sys nnn =>
    have hn : nnn.extractLsb' 0 4 ≠ 0x0#4 ∧ nnn.extractLsb' 0 4 ≠ 0xE#4 := by
      simpa [Instr.wf, isSysOperand] using hwf
    simp [encode, decode, decodeCat0, hn]
  case andReg x y =>
    have hp : p.andIsOr = false := hand.resolve_right fun hne => hne x y rfl
    simp [encode, decode, decodeCat8, hp]
  case cls | ret => simp [encode, decode, decodeCat0]
  case ldReg | orReg | xorReg | addReg | sub | shr | subn | shl => simp [encode, decode, decodeCat8]
  case skp | sknp => simp [encode, decode, decodeCatE]
  case ldVxDt | ldVxK | ldDtVx | ldStVx | addI | ldF | ldB | ldMemVx | ldVxMem => simp [encode, decode, decodeCatF]
  -- in every other category the category alone is the key
  all_goals simp [encode, decode]

/-! ## Encoding a decoded word -/

theorem wordNnn_of_fields {w : Word} {c : BitVec 4} (hc : fieldCat w = c) : wordNnn c (fieldNnn w) = w :=
  hc ▸ (word_eq_nnn w).symm

theorem wordXkk_of_fields {w : Word} {c : BitVec 4} {kk : Byte} (hc : fieldCat w = c) (hk : fieldKk w = kk) :
    wordXkk c (fieldX w) kk = w :=
  hc ▸ hk ▸ (word_eq_xkk w).symm

theorem wordXyn_of_fields {w : Word} {c n : BitVec 4} (hc : fieldCat w = c) (hn : fieldN w = n) :
    wordXyn c (fieldX w) (fieldMid w) n = w :=
  hc ▸ hn ▸ (word_eq_xyn w).symm

theorem wordPad_of_fields {w : Word} {c n : BitVec 4} (hc : fieldCat w = c) (hn : fieldN w = n) :
    wordPad c (fieldPad w) n = w :=
  hc ▸ hn ▸ (word_eq_pad w).symm

/-- The low nibble of nnn is the key of category 0, so SYS is well-formed exactly when neither other row takes it. -/
theorem isSysOperand_fieldNnn (w : Word) :
    isSysOperand (fieldNnn w) = true ↔ fieldN w ≠ 0x0#4 ∧ fieldN w ≠ 0xE#4 := by
  have hn : fieldN w = (fieldNnn w).extractLsb' 0 4 :=
    (congrArg fieldN (word_eq_nnn w)).trans (fieldN_wordNnn _ _)
  simp [isSysOperand, hn]

theorem encode_decodeCat0 {w : Word} (hc : fieldCat w = 0x0#4) :
    (decodeCat0 w).wf = true ∧ encode (decodeCat0 w) = w := by
  unfold decodeCat0
  split
  next hn => exact ⟨rfl, wordPad_of_fields hc hn⟩
  next hn => exact ⟨rfl, wordPad_of_fields hc hn⟩
  next h0 hE => exact ⟨(isSysOperand_fieldNnn w).2 ⟨h0, hE⟩, wordNnn_of_fields hc⟩

/-- Under `P_AND_IS_OR` the OR that 0x8xy2 decodes to has a word of its own, 0x8xy1. -/
theorem encode_of_decodeCat8 {p : Params} {w : Word} {i : Instr} (hc : fieldCat w = 0x8#4)
    (h : decodeCat8 p w = .ok i) : i.wf = true ∧ (encode i = w ∨ (p.andIsOr = true ∧ ∃ x y, i = .orReg x y)) := by
  unfold decodeCat8 at h
  split at h
  case h_3 hn =>
    split at h <;> cases h
    next hp => exact ⟨rfl, .inr ⟨hp, _, _, rfl⟩⟩
    next => exact ⟨rfl, .inl (wordXyn_of_fields hc hn)⟩
  case h_10 => cases h
  all_goals next hn => cases h; exact ⟨rfl, .inl (wordXyn_of_fields hc hn)⟩

theorem encode_of_decodeCatE {w : Word} {i : Instr} (hc : fieldCat w = 0xE#4)
    (h : decodeCatE w = .ok i) : i.wf = true ∧ encode i = w := by
  unfold decodeCatE at h
  split at h
  case h_3 => cases h
  all_goals next hn => cases h; exact ⟨rfl, wordXyn_of_fields hc hn⟩

theorem encode_of_decodeCatF {w : Word} {i : Instr} (hc : fieldCat w = 0xF#4)
    (h : decodeCatF w = .ok i) : i.wf = true ∧ encode i = w := by
  unfold decodeCatF at h
  split at h
  case h_10 => cases h
  all_goals next hk => cases h; exact ⟨rfl, wordXkk_of_fields hc hk⟩

theorem mem_nibbles : ∀ n : BitVec 4, n ∈ [0x0#4, 0x1#4, 0x2#4, 0x3#4, 0x4#4, 0x5#4, 0x6#4, 0x7#4, 0x8#4, 0x9#4,
    0xA#4, 0xB#4, 0xC#4, 0xD#4, 0xE#4, 0xF#4] := by decide

/-- The table of R64, said once: four categories have a table of their own, each other one is a single row, whose
instruction encodes back to the word. -/
theorem decode_cases (p : Params) (w : Word) :
    (fieldCat w = 0x0#4 ∧ decode p w = .ok (decodeCat0 w)) ∨
    (fieldCat w = 0x8#4 ∧ decode p w = decodeCat8 p w) ∨
    (fieldCat w = 0xE#4 ∧ decode p w = decodeCatE w) ∨
    (fieldCat w = 0xF#4 ∧ decode p w = decodeCatF w) ∨
    ((fieldCat w ≠ 0x8#4 ∧ fieldCat w ≠ 0xE#4 ∧ fieldCat w ≠ 0xF#4) ∧
      ∃ i, decode p w = .ok i ∧ i.wf = true ∧ encode i = w) := by
  unfold decode
  split
  case h_1 hc => exact .inl ⟨hc, rfl⟩
  case h_9 hc => exact .inr (.inl ⟨hc, rfl⟩)
  case h_15 hc => exact .inr (.inr (.inl ⟨hc, rfl⟩))
  case h_16 =>
    have hF : fieldCat w = 0xF#4 := by have := mem_nibbles (fieldCat w); simp_all
    exact .inr (.inr (.inr (.inl ⟨hF, rfl⟩)))
  case h_2 hc | h_3 hc | h_11 hc | h_12 hc =>
    exact .inr (.inr (.inr (.inr ⟨by simp [hc], _, rfl, rfl, wordNnn_of_fields hc⟩)))
  case h_6 hc | h_10 hc | h_14 hc =>
    exact .inr (.inr (.inr (.inr ⟨by simp [hc], _, rfl, rfl, wordXyn_of_fields hc rfl⟩)))
  all_goals next hc => exact .inr (.inr (.inr (.inr ⟨by simp [hc], _, rfl, rfl, wordXkk_of_fields hc rfl⟩)))

/-- Only an OR that stands for 0x8xy2 does not encode back to the word it was decoded from. -/
theorem encode_of_decode {p : Params} {w : Word} {i : Instr} (h : decode p w = .ok i) :
    i.wf = true ∧ (encode i = w ∨ (p.andIsOr = true ∧ ∃ x y, i = .orReg x y)) := by
  obtain ⟨hc, hd⟩ | ⟨hc, hd⟩ | ⟨hc, hd⟩ | ⟨hc, hd⟩ | ⟨-, j, hd, hj⟩ := decode_cases p w <;> rw [hd] at h
  · cases h; exact (encode_decodeCat0 hc).imp_right .inl
  · exact encode_of_decodeCat8 hc h
  · exact (encode_of_decodeCatE hc h).imp_right .inl
  · exact (encode_of_decodeCatF hc h).imp_right .inl
  · cases h; exact hj.imp_right .inl

/-- Settles O41: without the parameter no OR stands for 0x8xy2. -/
theorem encodeInvertsDecode : Obligations.EncodeInvertsDecode := by
  intro p w i h
  obtain ⟨hwf, he⟩ := encode_of_decode h
  exact ⟨hwf, fun hp => he.resolve_right fun ⟨hp', _⟩ => absurd (hp.symm.trans hp') nofun⟩

/-! ## The words no row matches, and SYS (30_encoding.md R66; 41_control_flow.md R85) -/

theorem exists_decodeCat8_error {p : Params} {w : Word} : (∃ e, decodeCat8 p w = .error e) ↔
    fieldN w ∈ [0x8#4, 0x9#4, 0xA#4, 0xB#4, 0xC#4, 0xD#4, 0xF#4] := by
  unfold decodeCat8
  split
  case h_10 => have := mem_nibbles (fieldN w); simp_all
  all_goals next hn => simp [hn]

theorem exists_decodeCatE_error {w : Word} : (∃ e, decodeCatE w = .error e) ↔ fieldN w ∉ [0x1#4, 0xE#4] := by
  unfold decodeCatE
  split
  case h_3 hE h1 => simpa using ⟨h1, hE⟩
  all_goals next hn => simp [hn]

theorem exists_decodeCatF_error {w : Word} : (∃ e, decodeCatF w = .error e) ↔
    fieldKk w ∉ [0x07#8, 0x0A#8, 0x15#8, 0x18#8, 0x1E#8, 0x29#8, 0x33#8, 0x55#8, 0x65#8] := by
  unfold decodeCatF
  split
  case h_10 => simp_all
  all_goals next hk => simp [hk]

theorem exists_decode_error {p : Params} {w : Word} : (∃ e, decode p w = .error e) ↔
    (fieldCat w = 0x8#4 ∧ ∃ e, decodeCat8 p w = .error e) ∨ (fieldCat w = 0xE#4 ∧ ∃ e, decodeCatE w = .error e) ∨
    (fieldCat w = 0xF#4 ∧ ∃ e, decodeCatF w = .error e) := by
  obtain ⟨hc, hd⟩ | ⟨hc, hd⟩ | ⟨hc, hd⟩ | ⟨hc, hd⟩ | ⟨hc, j, hd, -⟩ := decode_cases p w
  all_goals simp [hd, hc]

/-- SYS is what category 0 leaves: the word of a SYS is its own, and a word with its fields is one of a SYS. -/
theorem exists_decode_sys {p : Params} {w : Word} : (∃ nnn, decode p w = .ok (.sys nnn)) ↔
    fieldCat w = 0x0#4 ∧ fieldN w ≠ 0x0#4 ∧ fieldN w ≠ 0xE#4 := by
  constructor
  · rintro ⟨nnn, h⟩
    obtain ⟨hwf, rfl | ⟨-, x, y, hi⟩⟩ := encode_of_decode h
    · refine ⟨fieldCat_wordNnn _ _, (isSysOperand_fieldNnn _).1 ?_⟩
      rwa [encode, fieldNnn_wordNnn]
    · cases hi
  · rintro ⟨hc, hn⟩
    have h := decodeInvertsEncode p (.sys (fieldNnn w)) ((isSysOperand_fieldNnn w).2 hn) (.inr nofun)
    rw [encode, wordNnn_of_fields hc] at h
    exact ⟨_, h⟩

/-! ## The rows of the opcode map (30_encoding.md R65)

A word that matches a row has the row's key fields, since it masks to the row's word with 0 for the operands. -/

theorem rowDecodes_cat (c : BitVec 4) {f : Word → Instr} (hd : ∀ p w, fieldCat w = c → decode p w = .ok (f w)) :
    RowDecodes 0xF000 (wordNnn c 0) f := by
  intro p w h
  rw [word_eq_nnn w] at h
  have hw : wordNnn (fieldCat w) 0 = wordNnn c 0 := (Laws.nnn_masked _ _).symm.trans h
  exact hd p w (by simpa using congrArg fieldCat hw)

theorem rowDecodes_catN (c n : BitVec 4) {f : Word → Instr}
    (hd : ∀ p w, fieldCat w = c → fieldN w = n → decode p w = .ok (f w)) :
    RowDecodes 0xF00F (wordPad c 0 n) f := by
  intro p w h
  rw [word_eq_pad w] at h
  have hw : wordPad (fieldCat w) 0 (fieldN w) = wordPad c 0 n := (Laws.pad_masked_n _ _ _).symm.trans h
  exact hd p w (by simpa using congrArg fieldCat hw) (by simpa using congrArg fieldN hw)

theorem rowDecodes_catKk (c : BitVec 4) (kk : Byte) {f : Word → Instr}
    (hd : ∀ p w, fieldCat w = c → fieldKk w = kk → decode p w = .ok (f w)) :
    RowDecodes 0xF0FF (wordXkk c 0 kk) f := by
  intro p w h
  rw [word_eq_xkk w] at h
  have hw : wordXkk (fieldCat w) 0 (fieldKk w) = wordXkk c 0 kk := (Laws.xkk_masked_kk _ _ _).symm.trans h
  exact hd p w (by simpa using congrArg fieldCat hw) (by simpa using congrArg fieldKk hw)

/-- Settles O42: each row by its key fields, which the tables of R64 look up; the written-out words by evaluation. -/
theorem specWordsDecode : Obligations.SpecWordsDecode := by
  refine ⟨rowDecodes_catN 0x0 0xE fun p w hc hn => ?_, rowDecodes_cat 0x2 fun p w hc => ?_,
    rowDecodes_cat 0x9 fun p w hc => ?_, rowDecodes_cat 0xB fun p w hc => ?_,
    rowDecodes_catN 0x8 0x4 fun p w hc hn => ?_, rowDecodes_catN 0x8 0x5 fun p w hc hn => ?_,
    rowDecodes_catN 0x8 0x6 fun p w hc hn => ?_, rowDecodes_catN 0x8 0x7 fun p w hc hn => ?_,
    rowDecodes_catN 0x8 0xE fun p w hc hn => ?_, rowDecodes_cat 0xC fun p w hc => ?_,
    rowDecodes_cat 0xD fun p w hc => ?_, rowDecodes_catN 0xE 0xE fun p w hc hn => ?_,
    rowDecodes_catN 0xE 0x1 fun p w hc hn => ?_, rowDecodes_catKk 0xF 0x07 fun p w hc hk => ?_,
    rowDecodes_catKk 0xF 0x0A fun p w hc hk => ?_, rowDecodes_catKk 0xF 0x1E fun p w hc hk => ?_,
    rowDecodes_catKk 0xF 0x29 fun p w hc hk => ?_, rowDecodes_catKk 0xF 0x33 fun p w hc hk => ?_,
    rowDecodes_catKk 0xF 0x55 fun p w hc hk => ?_, rowDecodes_catKk 0xF 0x65 fun p w hc hk => ?_, by decide⟩
  all_goals simp [decode, decodeCat0, decodeCat8, decodeCatE, decodeCatF, *]

end Sys2Proof.Machine
end

section
/-! PROOFS. What follows phase 3 of a step (30_encoding.md R70, R72): the tick of the timers and the next inputs. -/

namespace Sys2Proof.Machine

/-! ## The end of a completed step -/

theorem toNat_tickTimer (b : Byte) : (tickTimer b).toNat = b.toNat - 1 := by
  unfold tickTimer
  split
  · subst b; rfl
  · bv_omega

/-- The end of a completed step changes the timers and the inputs alone (30_encoding.md R70). -/
theorem changesOnly_tick_nextInput {f : Footprint} (hd : f.delay = true) (hs : f.sound = true) (hi : f.inputs = true)
    (s : State) : ChangesOnly f s s.tick.nextInput where
  regs k _ := by simp
  index _ := by simp
  pc _ := by simp
  stack _ := by simp
  delay h := by simp [hd] at h
  sound h := by simp [hs] at h
  bytes a _ := by simp [State.byte]
  display _ r c := by simp
  latch _ := by simp
  inputs h := by simp [hi] at h
  params := by simp

theorem State.inputs_nextInput_of_nil {s : State} (h : s.pending = []) :
    s.nextInput.keys = s.keys ∧ s.nextInput.rnd = Config.freeRandomByte s.rndDraws ∧
      s.nextInput.rndDraws = s.rndDraws + 1 ∧ s.nextInput.pending = [] := by
  rw [State.nextInput_of_nil h]
  exact ⟨rfl, rfl, rfl, h⟩

theorem State.inputs_nextInput_of_cons {s : State} {inp : StepInput} {rest : List StepInput}
    (h : s.pending = inp :: rest) :
    s.nextInput.keys = inp.keys ∧ s.nextInput.rnd = inp.rnd ∧ s.nextInput.rndDraws = s.rndDraws ∧
      s.nextInput.pending = rest := by
  rw [State.nextInput_of_cons h]
  exact ⟨rfl, rfl, rfl, rfl⟩

/-- Settles O52: the fetched word is the one at PC, and `finishStep` tells the two outcomes apart. -/
theorem stepRunsDecodedInstruction : Obligations.StepRunsDecodedInstruction := by
  intro s i t hs hpc hi h
  have hstep : step s = finishStep (.next t) :=
    (step_of_decode hs (by rw [State.fetch_eq, if_pos hpc]) hi).trans (congrArg finishStep h)
  refine ⟨fun ht => hstep.trans (finishStep_faulted ht), fun ht => ?_⟩
  refine ⟨_, hstep.trans (finishStep_completed ht), ?_, ?_, changesOnly_tick_nextInput rfl rfl rfl t,
    State.inputs_nextInput_of_nil (s := t.tick), fun _ _ => State.inputs_nextInput_of_cons (s := t.tick)⟩
  · rw [State.nextInput_dt, State.tick_dt, toNat_tickTimer]
  · rw [State.nextInput_st, State.tick_st, toNat_tickTimer]

/-! ## Words that do nothing -/

theorem step_of_undefined_or_sys {s : State} {w : Word} (hs : s.fault = none) (hw : s.fetch = some w)
    (h : (∃ e, decode s.params w = .error e) ∨ ∃ nnn, decode s.params w = .ok (.sys nnn)) :
    step s = .next s.advancePc.tick.nextInput := by
  rcases h with ⟨e, he⟩ | ⟨nnn, hsys⟩
  · exact step_of_undefined hs hw he
  · exact (step_of_decode hs hw hsys).trans (finishStep_completed hs)

/-- Settles O6: which words they are is `exists_decode_sys` and `exists_decode_error`; their step is the advance and
the end of a completed step. -/
theorem sysAndUndefinedWordsDoNothing : Obligations.SysAndUndefinedWordsDoNothing := by
  refine ⟨fun nnn s => ⟨s, rfl, ChangesOnly.refl _ s⟩, fun p w => exists_decode_sys, fun p w => ?_, ?_⟩
  · rw [exists_decode_error, exists_decodeCat8_error, exists_decodeCatE_error, exists_decodeCatF_error]
    rfl
  · intro s w hs hw h
    refine ⟨_, step_of_undefined_or_sys hs hw h, State.nextInput_pc _, ?_, ?_, ?_,
      State.inputs_nextInput_of_nil (s := s.advancePc.tick),
      fun _ _ => State.inputs_nextInput_of_cons (s := s.advancePc.tick)⟩
    · rw [State.nextInput_dt, State.tick_dt, toNat_tickTimer, State.advancePc_dt]
    · rw [State.nextInput_st, State.tick_st, toNat_tickTimer, State.advancePc_st]
    · exact (changesOnly_setPc rfl s _).trans (changesOnly_tick_nextInput rfl rfl rfl _)

/-! ## The timers of a completed step -/

/-- Only LD DT, Vx has the delay timer in its footprint. -/
theorem footprint_delay {i : Instr} {s : State} (h : (footprint i s).delay ≠ false) : ∃ x, i = .ldDtVx x := by
  cases i
  case ldDtVx x => exact ⟨x, rfl⟩
  all_goals exact absurd rfl h

/-- Only LD ST, Vx has the sound timer in its footprint. -/
theorem footprint_sound {i : Instr} {s : State} (h : (footprint i s).sound ≠ false) : ∃ x, i = .ldStVx x := by
  cases i
  case ldStVx x => exact ⟨x, rfl⟩
  all_goals exact absurd rfl h

/-- A completed step ran no instruction, or the one `State.running` names. -/
theorem step_completed {s t : State} (h : step s = .next t) (ht : t.fault = none) :
    (s.running = none ∧ t = s.advancePc.tick.nextInput) ∨
    ∃ i u, s.running = some i ∧ exec i s.advancePc = .next u ∧ u.fault = none ∧ t = u.tick.nextInput := by
  obtain ⟨hs, ⟨-, h⟩ | ⟨w, i, u, hw, hi, hu, ⟨hf, rfl⟩ | ⟨hf, rfl⟩⟩ | ⟨w, e, hw, he, rfl⟩⟩ := step_cases h
  · cases h; cases ht
  · exact .inr ⟨i, u, State.running_of_decode hs hw hi, hu, hf, rfl⟩
  · exact absurd ht hf
  · exact .inl ⟨by simp [State.running, hs, hw, he], rfl⟩

/-- A completed step ticks each timer from where it stood, or from Vx if it ran the instruction that writes it
(decision D21). -/
theorem timers_of_completed_step {s t : State} (h : step s = .next t) (ht : t.fault = none) :
    ∃ u : State, t = u.tick.nextInput ∧
    (∀ x, s.running = some (.ldDtVx x) → u.dt = s.reg x) ∧ ((∀ x, s.running ≠ some (.ldDtVx x)) → u.dt = s.dt) ∧
    (∀ x, s.running = some (.ldStVx x) → u.st = s.reg x) ∧ ((∀ x, s.running ≠ some (.ldStVx x)) → u.st = s.st) := by
  rcases step_completed h ht with ⟨hr, rfl⟩ | ⟨i, u, hr, hu, hf, rfl⟩
  · exact ⟨_, rfl, by simp [hr], fun _ => rfl, by simp [hr], fun _ => rfl⟩
  · rw [hr]
    have hc := (completes_of_no_fault hu hf).frame
    refine ⟨u, rfl, ?_, fun hne => ?_, ?_, fun hne => ?_⟩
    · rintro x ⟨⟩; cases hu; rfl
    · exact hc.delay (by_contra fun hd => (footprint_delay hd).elim fun x hx => hne x (congrArg some hx))
    · rintro x ⟨⟩; cases hu; rfl
    · exact hc.sound (by_contra fun hd => (footprint_sound hd).elim fun x hx => hne x (congrArg some hx))

/-- Settles O54: one tick of what `timers_of_completed_step` says. -/
theorem completedStepTicksTimers : Obligations.CompletedStepTicksTimers := by
  intro s t h ht
  obtain ⟨u, rfl, hdt, hdt', hst, hst'⟩ := timers_of_completed_step h ht
  simp only [State.nextInput_dt, State.nextInput_st, State.tick_dt, State.tick_st, toNat_tickTimer]
  refine ⟨fun x hx => by rw [hdt x hx], fun hne => by rw [hdt' hne], fun x hx => by rw [hst x hx],
    fun hne => by rw [hst' hne], ?_⟩
  rw [State.soundActive_iff, State.nextInput_st, State.tick_st, toNat_tickTimer]

end Sys2Proof.Machine
end

section
/-! PROOFS. The display (40_display.md): what one draw does, and from it the two laws of R83. -/

namespace Sys2Proof.Machine

/-! ## The pixels a sprite covers -/

/-- The pixels DRW toggles when the sprite's n bytes at I lie in memory, in its order (40_display.md R81). -/
def coveredCells (s : State) (x y : Reg) (n : BitVec 4) : List (Fin fbRows × Fin fbCols) :=
  spriteCellsFrom (startRow s y) (startCol s x) 0 (s.mem.readBytes s.dataAddress n.toNat)

theorem mem_coveredCells {s : State} {x y : Reg} {n : BitVec 4} {r : Fin fbRows} {c : Fin fbCols} :
    (r, c) ∈ coveredCells s x y n ↔ SpriteCovers s x y n r c := by
  simp only [coveredCells, mem_spriteCellsFrom, Memory.length_readBytes, Memory.getElem_readBytes]
  constructor
  · rintro ⟨k, hk, j, hj, hbit, hcell⟩
    obtain ⟨rfl, rfl⟩ := Prod.mk.inj hcell
    exact ⟨k, j, hk, hj, hbit, by simp [startRow, fbRows], by simp [startCol, fbCols]⟩
  · rintro ⟨k, j, hk, hj, hbit, hr, hc⟩
    exact ⟨k, hk, j, hj, hbit, Prod.ext (Fin.ext (by simp [hr, spriteCell, startRow, fbRows]))
      (Fin.ext (by simp [hc, spriteCell, startCol, fbCols]))⟩

theorem nodup_coveredCells (s : State) (x y : Reg) (n : BitVec 4) : (coveredCells s x y n).Nodup :=
  nodup_spriteCellsFrom (by have := n.isLt; simp only [Memory.length_readBytes]; omega)

/-- Which pixels are covered depends on the corner and on the sprite's bytes alone. -/
theorem spriteCovers_congr {s u : State} {x y x' y' : Reg} {n : BitVec 4}
    (hx : (u.reg x').toNat % 64 = (s.reg x).toNat % 64) (hy : (u.reg y').toNat % 32 = (s.reg y).toNat % 32)
    (hb : ∀ k, k < n.toNat → u.byte (u.i.toNat + k) = s.byte (s.i.toNat + k)) (r : Fin fbRows) (c : Fin fbCols) :
    SpriteCovers u x' y' n r c ↔ SpriteCovers s x y n r c := by
  unfold SpriteCovers
  rw [hx, hy]
  refine exists_congr fun k => exists_congr fun j => and_congr_right fun hk => ?_
  rw [hb k hk]

/-! ## What one draw does -/

/-- What DRW does when its sprite lies in memory: it inverts the covered pixels, and VF tells whether one of them was
lit (40_display.md R81, R82). -/
structure Draws (x y : Reg) (n : BitVec 4) (s t : State) : Prop where
  covered : ∀ {r c}, SpriteCovers s x y n r c → Framebuffer.pixel t.fb r c = !Framebuffer.pixel s.fb r c
  uncovered : ∀ {r c}, ¬ SpriteCovers s x y n r c → Framebuffer.pixel t.fb r c = Framebuffer.pixel s.fb r c
  hit : (∃ r c, SpriteCovers s x y n r c ∧ Framebuffer.pixel s.fb r c = true) → t.reg Reg.VF = 1
  miss : (¬ ∃ r c, SpriteCovers s x y n r c ∧ Framebuffer.pixel s.fb r c = true) → t.reg Reg.VF = 0
  frame : ChangesOnly { regs := [Reg.VF], display := true } s t

/-- The state after the covered cells are drawn from an unset flag. -/
theorem draws_foldl_drawCell (x y : Reg) (n : BitVec 4) (s : State) :
    Draws x y n s
      ({ s with fb := ((coveredCells s x y n).foldl drawCell (s.fb, false)).1 }.setFlag
        (flagByte ((coveredCells s x y n).foldl drawCell (s.fb, false)).2)) := by
  obtain ⟨hpixel, hhit⟩ := foldl_drawCell (nodup_coveredCells s x y n) s.fb false
  have hlit : ((coveredCells s x y n).foldl drawCell (s.fb, false)).2 = true ↔
      ∃ r c, SpriteCovers s x y n r c ∧ Framebuffer.pixel s.fb r c = true := by
    simp [hhit, ← mem_coveredCells]
  refine ⟨fun h => ?_, fun h => ?_, fun h => ?_, fun h => ?_, ?_⟩
  · simp [hpixel, mem_coveredCells, h]
  · simp [hpixel, mem_coveredCells, h]
  · simp [hlit.2 h]
  · simp [Bool.eq_false_iff.2 (mt hlit.1 h)]
  · exact (changesOnly_fb rfl s _).trans (changesOnly_setFlag (by simp) _ _)

theorem exec_drw_of_inside {x y : Reg} {n : BitVec 4} {s : State}
    (h : n.toNat = 0 ∨ s.i.toNat + n.toNat - 1 < memSize) : ∃ t, exec (.drw x y n) s = .next t ∧ Draws x y n s t := by
  refine ⟨_, ?_, draws_foldl_drawCell x y n s⟩
  rw [exec, execDrw, State.dataAddress, memRead_of_inside h]
  rfl

/-- A DRW that leaves the latch clear found its sprite in memory. -/
theorem draws_of_exec {x y : Reg} {n : BitVec 4} {s t : State} (h : exec (.drw x y n) s = .next t)
    (ht : t.fault = none) : Draws x y n s t := by
  have hnone := (completes_of_no_fault h ht).noFault
  simp only [expectedFault, ite_eq_right_iff, reduceCtorEq, imp_false] at hnone
  obtain ⟨t', ht', hd⟩ := exec_drw_of_inside (x := x) (y := y) (n := n) (s := s) (by simp only [memSize]; omega)
  rw [h] at ht'
  cases ht'
  exact hd

/-! ## The statements -/

/-- Settles O1. -/
theorem clearScreenUnlitsEveryPixel : Obligations.ClearScreenUnlitsEveryPixel := by
  refine ⟨rowDecodes_catN 0x0 0x0 fun p w hc hn => ?_, fun pad s => ⟨_, rfl, ?_, changesOnly_fb rfl s _⟩⟩
  · simp [decode, decodeCat0, hc, hn]
  · exact Framebuffer.pixel_clear

/-- Settles O2: `Draws`, with the inverted pixels said as which pixels are lit. -/
theorem drawSpriteInvertsCoveredPixels : Obligations.DrawSpriteInvertsCoveredPixels := by
  intro x y n s h
  have hin : n.toNat = 0 ∨ s.i.toNat + n.toNat - 1 < memSize := by
    rcases h with rfl | h
    · exact .inl rfl
    · simp only [memSize]; omega
  obtain ⟨t, ht, hd⟩ := exec_drw_of_inside hin
  refine ⟨t, ht, fun r c => ?_, hd.hit, hd.miss, hd.frame⟩
  by_cases hc : SpriteCovers s x y n r c
  · simp [hd.covered hc, hc]
  · simp [hd.uncovered hc, hc]

/-- Settles O3: the second draw inverts the same pixels again, and finds one lit exactly when it was unlit before
the first. -/
theorem drawTwiceRestoresFramebuffer : Obligations.DrawTwiceRestoresFramebuffer := by
  intro x y x' y' n s t u w hst ht hfb hx hy hb huw hw
  have hd := draws_of_exec hst ht
  have he := draws_of_exec huw hw
  have hcov := spriteCovers_congr hx hy hb
  have hlit : (∃ r c, SpriteCovers u x' y' n r c ∧ Framebuffer.pixel u.fb r c = true) ↔
      ∃ r c, SpriteCovers s x y n r c ∧ Framebuffer.pixel s.fb r c = false := by
    refine exists_congr fun r => exists_congr fun c => ?_
    rw [hcov, hfb]
    exact and_congr_right fun hc => by simp [hd.covered hc]
  refine ⟨fun r c => ?_, fun h => he.hit (hlit.2 h), fun h => he.miss (mt hlit.1 h)⟩
  by_cases hc : SpriteCovers s x y n r c
  · rw [he.covered ((hcov r c).2 hc), hfb, hd.covered hc, Bool.not_not]
  · rw [he.uncovered (mt (hcov r c).1 hc), hfb, hd.uncovered hc]

/-- Settles O4: the last draw inverts pixels that CLS left unlit. -/
theorem drawClearDrawLeavesSprite : Obligations.DrawClearDrawLeavesSprite := by
  intro x y x' y' n pad s t u v w _ _ hcls hfb hx hy hb hvw hw
  have hd := draws_of_exec hvw hw
  have hcov := spriteCovers_congr hx hy hb
  have hunlit : ∀ r c, Framebuffer.pixel v.fb r c = false := by
    cases hcls
    rw [hfb]
    exact Framebuffer.pixel_clear
  refine ⟨fun r c => ?_, hd.miss ?_⟩
  · rw [← hcov]
    by_cases hc : SpriteCovers v x' y' n r c
    · simp [hd.covered hc, hunlit, hc]
    · simp [hd.uncovered hc, hunlit, hc]
  · rintro ⟨r, c, -, hl⟩
    simp [hunlit] at hl

end Sys2Proof.Machine
end

section
/-! PROOFS. Control flow (41_control_flow.md): jumps, CALL and RET, and the skips on registers. -/

namespace Sys2Proof.Machine

/-! ## Jumps -/

/-- Nothing is fetched from a PC above 0xFFE (20_memory.md R49). -/
theorem State.fetch_eq_none {s : State} (h : 0xFFE < s.pc.toNat) : s.fetch = none := by
  rw [State.fetch_eq, if_neg (Nat.not_le_of_lt h)]

/-- Settles O7. -/
theorem jumpSetsPcToOperand : Obligations.JumpSetsPcToOperand := by
  refine ⟨rowDecodes_cat 0x1 fun p w hc => by simp [decode, hc], fun nnn s => ?_⟩
  refine ⟨_, rfl, toNat_zext16 nnn, ?_, changesOnly_setPc rfl s _⟩
  rintro rfl
  exact State.fetch_eq_none (by simp)

/-- Settles O15: V0 + nnn does not wrap, so a sum above 0xFFE is a PC above it. -/
theorem jumpOffsetAddsV0 : Obligations.JumpOffsetAddsV0 := by
  intro nnn s
  have hpc : (s.setPc (offsetTarget s nnn)).pc.toNat = (s.reg Reg.V0).toNat + nnn.toNat := toNat_offsetTarget s nnn
  exact ⟨_, rfl, hpc, fun h => State.fetch_eq_none (by rwa [hpc]), changesOnly_setPc rfl s _⟩

/-! ## CALL and RET -/

/-- CALL below 16 entries writes PC in the free slot, counts it and jumps, whatever the latch (41_control_flow.md
R88). -/
theorem exec_call_of_lt {s : State} (h : s.sp.val < 16) (nnn : BitVec 12) :
    exec (.call nnn) s = .next ({ s with
      stack := s.stack.set s.sp.val s.pc, sp := ⟨s.sp.val + 1, Nat.succ_lt_succ h⟩ }.setPc (zext16 nnn)) := by
  rw [exec, execCall, State.push_of_lt h]

/-- RET on k + 1 entries takes PC from slot k and counts k, whatever the latch (41_control_flow.md R86). -/
theorem exec_ret_of_pos {s : State} {k : Nat} (hk : k < 16) (h : s.sp.val = k + 1) (pad : Byte) :
    exec (.ret pad) s =
      .next ({ s with sp := ⟨k, Nat.lt_succ_of_lt hk⟩ }.setPc (s.stack.get ⟨k, hk⟩)) := by
  rw [exec, execRet, State.pop_of_pos hk h]

/-- Settles O8. -/
theorem callPushesReturnAddress : Obligations.CallPushesReturnAddress := by
  intro nnn s h
  refine ⟨_, exec_call_of_lt h nnn, ?_, fun k hk => ?_, rfl, toNat_zext16 nnn,
    (changesOnly_stack rfl s _ _).trans (changesOnly_setPc rfl _ _)⟩
  · simp [Vector.get_eq_getElem]
  · simp [Vector.get_eq_getElem, Vector.getElem_set_ne _ _ hk.symm]

/-- Settles O9. -/
theorem returnPopsIntoPc : Obligations.ReturnPopsIntoPc := by
  intro pad s k h
  have hk : k < 16 := by have := s.sp.isLt; simp only [stackDepth] at this; omega
  exact ⟨_, exec_ret_of_pos hk h pad, rfl, ⟨hk, rfl⟩, rfl,
    (changesOnly_stack rfl s s.stack _).trans (changesOnly_setPc rfl _ _)⟩

/-- Settles O11: RET reads slot SP, the one CALL wrote the advanced PC in. -/
theorem returnUndoesCall : Obligations.ReturnUndoesCall := by
  intro nnn pad s t u hs hcall hstack hsp
  rw [exec_call_of_lt (s := s.advancePc) hs nnn] at hcall
  cases hcall
  refine ⟨_, exec_ret_of_pos (s := u) hs (congrArg Fin.val hsp) pad, ?_, rfl⟩
  simp [hstack, Vector.get_eq_getElem]

/-! ## Skips -/

theorem State.pc_skipIf_of_true {c : Bool} (h : c = true) (s : State) : (s.skipIf c).pc = s.pc + 2 := by
  rw [State.skipIf_pc, if_pos h]

theorem State.pc_skipIf_of_false {c : Bool} (h : c = false) (s : State) : (s.skipIf c).pc = s.pc := by
  rw [State.skipIf_pc, if_neg (Bool.eq_false_iff.1 h)]

/-- Skipping on equality adds 2 to PC exactly when the bytes are equal, and changes nothing else (41_control_flow.md
R93). -/
theorem skipIf_beq (s : State) (a b : Byte) :
    (a = b → (s.skipIf (a == b)).pc = s.pc + 2) ∧ (a ≠ b → (s.skipIf (a == b)).pc = s.pc) ∧
      ChangesOnly { pc := true } s (s.skipIf (a == b)) :=
  ⟨fun h => State.pc_skipIf_of_true (beq_iff_eq.2 h) s, fun h => State.pc_skipIf_of_false (beq_eq_false_iff_ne.2 h) s,
    changesOnly_skipIf rfl s _⟩

/-- Skipping on inequality adds 2 to PC exactly when the bytes differ, and changes nothing else (41_control_flow.md
R93). -/
theorem skipIf_bne (s : State) (a b : Byte) :
    (a ≠ b → (s.skipIf (a != b)).pc = s.pc + 2) ∧ (a = b → (s.skipIf (a != b)).pc = s.pc) ∧
      ChangesOnly { pc := true } s (s.skipIf (a != b)) :=
  ⟨fun h => State.pc_skipIf_of_true (bne_iff_ne.2 h) s, fun h => State.pc_skipIf_of_false (bne_eq_false_iff_eq.2 h) s,
    changesOnly_skipIf rfl s _⟩

theorem sneOperand_of_false {s : State} (h : s.params.sneReadsV0 = false) (y : Reg) : sneOperand s y = s.reg y := by
  simp [sneOperand, h]

theorem sneOperand_of_true {s : State} (h : s.params.sneReadsV0 = true) (y : Reg) :
    sneOperand s y = s.reg Reg.V0 := by
  simp [sneOperand, h]

/-- Settles O12. -/
theorem skipOnImmediate : Obligations.SkipOnImmediate := by
  refine ⟨rowDecodes_cat 0x3 fun p w hc => by simp [decode, hc],
    rowDecodes_cat 0x4 fun p w hc => by simp [decode, hc], fun x kk s => ?_⟩
  exact ⟨⟨_, rfl, skipIf_beq s (s.reg x) kk⟩, ⟨_, rfl, skipIf_bne s (s.reg x) kk⟩⟩

/-- Settles O13. -/
theorem skipOnEqualRegisters : Obligations.SkipOnEqualRegisters := by
  refine ⟨rowDecodes_cat 0x5 fun p w hc => by simp [decode, hc], fun x y pad s => ?_⟩
  obtain ⟨heq, hne, hframe⟩ := skipIf_beq s (s.reg x) (s.reg y)
  exact ⟨_, rfl, heq, hne, fun hxy => heq (congrArg s.reg hxy), hframe⟩

/-- Settles O14: the parameter chooses the second operand. -/
theorem skipOnUnequalRegisters : Obligations.SkipOnUnequalRegisters := by
  intro x y pad s
  obtain ⟨hne, heq, hframe⟩ := skipIf_bne s (s.reg x) (sneOperand s y)
  refine ⟨_, rfl, fun hp => ?_, fun hp => ?_, hframe⟩
  · rw [← sneOperand_of_false hp y]
    exact ⟨hne, heq⟩
  · rw [← sneOperand_of_true hp y]
    exact ⟨hne, heq⟩

end Sys2Proof.Machine
end

section
/-! PROOFS. Registers and the ALU (42_alu.md): the instructions that write one register, then those that write VF and
then a result computed from the registers as that write left them (decision D4). -/

namespace Sys2Proof.Machine

/-! ## Writing one register -/

theorem State.reg_setReg_same (s : State) (x : Reg) (b : Byte) : (s.setReg x b).reg x = b := by
  rw [State.reg_setReg, if_pos rfl]

theorem changesOnly_setReg_singleton (s : State) (x : Reg) (b : Byte) :
    ChangesOnly { regs := [x] } s (s.setReg x b) :=
  changesOnly_setReg (List.mem_singleton_self x) s b

/-- Settles O16. -/
theorem loadImmediateSetsRegister : Obligations.LoadImmediateSetsRegister := by
  refine ⟨rowDecodes_cat 0x6 fun p w hc => by simp [decode, hc], fun x kk s => ?_⟩
  exact ⟨_, rfl, s.reg_setReg_same x kk, changesOnly_setReg_singleton s x kk⟩

/-- Settles O17. -/
theorem loadRegisterCopies : Obligations.LoadRegisterCopies := by
  refine ⟨rowDecodes_catN 0x8 0x0 fun p w hc hn => by simp [decode, decodeCat8, hc, hn], fun x y s => ?_⟩
  exact ⟨_, rfl, s.reg_setReg_same x _, changesOnly_setReg_singleton s x _⟩

/-- Settles O18: bytes add modulo 256. -/
theorem addImmediateWrapsWithoutFlag : Obligations.AddImmediateWrapsWithoutFlag := by
  refine ⟨rowDecodes_cat 0x7 fun p w hc => by simp [decode, hc], fun x kk s => ?_⟩
  refine ⟨_, rfl, ?_, changesOnly_setReg_singleton s x _⟩
  rw [State.reg_setReg_same, BitVec.toNat_add]

/-! ## Bitwise instructions -/

/-- A word that matches a row keyed by the category and the low nibble has them as its fields. -/
theorem fields_of_masked_catN {c n : BitVec 4} {w : Word} (h : w &&& 0xF00F = wordPad c 0 n) :
    fieldCat w = c ∧ fieldN w = n := by
  rw [word_eq_pad w] at h
  have hw : wordPad (fieldCat w) 0 (fieldN w) = wordPad c 0 n := (Laws.pad_masked_n _ _ _).symm.trans h
  exact ⟨by simpa using congrArg fieldCat hw, by simpa using congrArg fieldN hw⟩

/-- The words 0x8xy2 are OR under `P_AND_IS_OR` and AND otherwise (30_encoding.md R64). -/
theorem decode_8xy2 (p : Params) {w : Word} (h : w &&& 0xF00F = 0x8002) :
    decode p w = .ok (if p.andIsOr then .orReg (fieldX w) (fieldY w) else .andReg (fieldX w) (fieldY w)) := by
  obtain ⟨hc, hn⟩ := fields_of_masked_catN (c := 0x8) (n := 0x2) h
  simp [decode, decodeCat8, hc, hn]

/-- Settles O19. -/
theorem orXorActBitwise : Obligations.OrXorActBitwise := by
  refine ⟨rowDecodes_catN 0x8 0x1 fun p w hc hn => by simp [decode, decodeCat8, hc, hn],
    rowDecodes_catN 0x8 0x3 fun p w hc hn => by simp [decode, decodeCat8, hc, hn],
    fun p w hp hw => by rw [decode_8xy2 p hw, hp, if_pos rfl], fun x y s => ⟨?_, ?_⟩⟩
  · refine ⟨_, rfl, fun j => ?_, changesOnly_setReg_singleton s x _⟩
    rw [State.reg_setReg_same, BitVec.getLsbD_or]
  · refine ⟨_, rfl, fun j => ?_, changesOnly_setReg_singleton s x _⟩
    rw [State.reg_setReg_same, BitVec.getLsbD_xor]

/-- Settles O20. -/
theorem andActsBitwise : Obligations.AndActsBitwise := by
  refine ⟨fun p w hp hw => by simp [decode_8xy2 p hw, hp], fun x y s => ?_⟩
  refine ⟨_, rfl, fun j => ?_, changesOnly_setReg_singleton s x _⟩
  rw [State.reg_setReg_same, BitVec.getLsbD_and]

/-- Settles O25. -/
theorem randomIsMaskedInputByte : Obligations.RandomIsMaskedInputByte := by
  intro x kk s
  refine ⟨_, rfl, fun j => ?_, changesOnly_setReg_singleton s x _⟩
  rw [State.reg_setReg_same, BitVec.getLsbD_and]

/-! ## Writing VF, then the result -/

/-- The flag stays in VF unless the result, written after it, goes there too (decision D4). -/
theorem State.regVF_setFlag_setReg {x : Reg} (hx : x ≠ Reg.VF) (s : State) (flag result : Byte) :
    ((s.setFlag flag).setReg x result).reg Reg.VF = flag := by
  rw [State.reg_setReg, if_neg hx.symm, State.reg_setFlag, if_pos rfl]

theorem changesOnly_setFlag_setReg (s : State) (x : Reg) (flag result : Byte) :
    ChangesOnly { regs := [x, Reg.VF] } s ((s.setFlag flag).setReg x result) :=
  (changesOnly_setFlag (by simp) s flag).trans (changesOnly_setReg (by simp) _ result)

/-- Settles O21. -/
theorem addRegistersSetsCarry : Obligations.AddRegistersSetsCarry := by
  intro x y s
  refine ⟨_, rfl, ?_, fun hx hsum => ?_, fun hx hsum => ?_, changesOnly_setFlag_setReg s x _ _⟩
  · rw [State.reg_setReg_same, BitVec.toNat_ofNat]
  · rw [State.regVF_setFlag_setReg hx, carryFlag_eq, if_pos hsum]
  · rw [State.regVF_setFlag_setReg hx, carryFlag_eq, if_neg (Nat.not_lt_of_le hsum)]

/-! ## Subtraction -/

theorem toNat_byte_sub (a b : Byte) : (a - b).toNat = (a.toNat + 256 - b.toNat) % 256 := by
  have := b.isLt
  rw [BitVec.toNat_sub]
  omega

theorem toNat_greaterFlag (a b : Byte) : (greaterFlag a b).toNat = if b.toNat < a.toNat then 1 else 0 := by
  rw [greaterFlag_eq, apply_ite BitVec.toNat]
  rfl

/-- The difference of two registers read after a flag was written: the operand VF reads as the flag (decision D4). -/
theorem sub_after_setFlag (s : State) (flag : Byte) (a b : Reg) :
    (a ≠ Reg.VF → b ≠ Reg.VF → ((s.setFlag flag).reg a - (s.setFlag flag).reg b).toNat =
      ((s.reg a).toNat + 256 - (s.reg b).toNat) % 256) ∧
    (a = Reg.VF → b ≠ Reg.VF → ((s.setFlag flag).reg a - (s.setFlag flag).reg b).toNat =
      (flag.toNat + 256 - (s.reg b).toNat) % 256) ∧
    (a ≠ Reg.VF → b = Reg.VF → ((s.setFlag flag).reg a - (s.setFlag flag).reg b).toNat =
      ((s.reg a).toNat + 256 - flag.toNat) % 256) ∧
    (a = Reg.VF → b = Reg.VF → (s.setFlag flag).reg a - (s.setFlag flag).reg b = 0) := by
  rw [toNat_byte_sub, State.reg_setFlag, State.reg_setFlag]
  refine ⟨fun ha hb => ?_, fun ha hb => ?_, fun ha hb => ?_, fun ha hb => ?_⟩
  · rw [if_neg ha, if_neg hb]
  · rw [if_pos ha, if_neg hb]
  · rw [if_neg ha, if_pos hb]
  · rw [if_pos ha, if_pos hb]
    exact BitVec.sub_self flag

/-- Settles O22. -/
theorem subtractSetsGreaterFlag : Obligations.SubtractSetsGreaterFlag := by
  intro x y s f hf
  rw [← toNat_greaterFlag] at hf
  subst hf
  obtain ⟨hne, hx, hy, hxy⟩ := sub_after_setFlag s (greaterFlag (s.reg x) (s.reg y)) x y
  refine ⟨_, rfl, fun h => congrArg BitVec.toNat (State.regVF_setFlag_setReg h s _ _), ?_⟩
  rw [State.reg_setReg_same]
  exact ⟨hne, hx, hy, hxy, changesOnly_setFlag_setReg s x _ _⟩

/-- Settles O23: the same difference with the operands exchanged. -/
theorem subtractReverseSetsGreaterFlag : Obligations.SubtractReverseSetsGreaterFlag := by
  intro x y s f hf
  rw [← toNat_greaterFlag] at hf
  subst hf
  obtain ⟨hne, hy, hx, hxy⟩ := sub_after_setFlag s (greaterFlag (s.reg y) (s.reg x)) y x
  refine ⟨_, rfl, fun h => congrArg BitVec.toNat (State.regVF_setFlag_setReg h s _ _), ?_⟩
  rw [State.reg_setReg_same]
  exact ⟨fun h h' => hne h' h, fun h h' => hx h' h, fun h h' => hy h' h, fun h h' => hxy h' h,
    changesOnly_setFlag_setReg s x _ _⟩

/-! ## Shifts -/

theorem toNat_byte_shiftRight_one (a : Byte) : (a >>> 1).toNat = a.toNat / 2 := by
  rw [BitVec.toNat_ushiftRight, Nat.shiftRight_one]

theorem toNat_byte_shiftLeft_one (a : Byte) : (a <<< 1).toNat = a.toNat * 2 % 256 := by
  rw [BitVec.toNat_shiftLeft, Nat.shiftLeft_eq]

/-- SHR VF shifts the one bit it wrote out of the register. -/
theorem lowBitFlag_shiftRight_one (a : Byte) : lowBitFlag a >>> 1 = 0 := by
  refine BitVec.eq_of_toNat_eq ?_
  rw [toNat_byte_shiftRight_one, toNat_lowBitFlag, Nat.mod_div_self]
  rfl

/-- SHL VF shifts the one bit it wrote to the left, where it stays. -/
theorem toNat_highBitFlag_shiftLeft_one (a : Byte) : (highBitFlag a <<< 1).toNat = a.toNat / 128 * 2 := by
  have := a.isLt
  rw [toNat_byte_shiftLeft_one, toNat_highBitFlag]
  omega

/-- Settles O24. -/
theorem shiftsSetShiftedOutBit : Obligations.ShiftsSetShiftedOutBit := by
  refine fun x pad s => ⟨⟨_, rfl, fun hx => ⟨?_, ?_⟩, fun hx => ?_, changesOnly_setFlag_setReg s x _ _⟩,
    ⟨_, rfl, fun hx => ⟨?_, ?_⟩, fun hx => ?_, changesOnly_setFlag_setReg s x _ _⟩⟩
  · rw [State.reg_setReg_same, State.reg_setFlag, if_neg hx, toNat_byte_shiftRight_one]
  · rw [State.regVF_setFlag_setReg hx, toNat_lowBitFlag]
  · rw [State.reg_setReg_same, State.reg_setFlag, if_pos hx, lowBitFlag_shiftRight_one]
  · rw [State.reg_setReg_same, State.reg_setFlag, if_neg hx, toNat_byte_shiftLeft_one]
  · rw [State.regVF_setFlag_setReg hx, toNat_highBitFlag]
  · rw [State.reg_setReg_same, State.reg_setFlag, if_pos hx, toNat_highBitFlag_shiftLeft_one]

end Sys2Proof.Machine
end

section
/-! PROOFS. Index register and memory (43_index_memory.md): the instructions that set I, the block stores and the block
load inside memory, and that the load undoes the store. -/

namespace Sys2Proof.Machine

/-! ## Setting I -/

/-- Settles O26. -/
theorem loadIndexSetsOperand : Obligations.LoadIndexSetsOperand := by
  refine ⟨rowDecodes_cat 0xA fun p w hc => by simp [decode, hc], fun nnn s => ?_⟩
  exact ⟨_, rfl, toNat_zext16 nnn, changesOnly_setI rfl s _⟩

/-- Settles O27: words add modulo 65536. -/
theorem addIndexWrapsWithoutFlag : Obligations.AddIndexWrapsWithoutFlag := by
  intro x s
  refine ⟨_, rfl, ?_, changesOnly_setI rfl s _⟩
  rw [State.setI_i, BitVec.toNat_add, toNat_byteToWord]

/-- Settles O28. -/
theorem loadGlyphAddress : Obligations.LoadGlyphAddress :=
  fun x s => ⟨_, rfl, toNat_glyphAddress (s.reg x), changesOnly_setI rfl s _⟩

/-! ## Storing a block -/

/-- A block store inside memory that is not a reserved write stores the block at I (20_memory.md R48). -/
theorem storeBlock_of_inside {bs : List Byte} {s : State} (hb : s.i.toNat + bs.length - 1 < memSize)
    (hp : s.params.lowmemWriteFault = false ∨ programBase ≤ s.i.toNat) (i : Instr) :
    storeBlock i bs s = .next { s with mem := s.mem.writeBytes s.i.toNat bs } := by
  rw [storeBlock, State.dataAddress, memWrite_of_inside hb hp]

theorem changesOnly_writeBytes (s : State) (a : Nat) (bs : List Byte) :
    ChangesOnly { storeBase := a, stored := bs.length } s { s with mem := s.mem.writeBytes a bs } :=
  { ChangesOnly.refl _ s with bytes := fun _ ha => Memory.read_writeBytes_outside ha }

/-- Once the digits of a byte are stored at an address, the three bytes from it are the digits of R121. -/
theorem Memory.toNat_read_writeBytes_bcdDigits (m : Memory) (a : Nat) (b : Byte) :
    ((m.writeBytes a (bcdDigits b)).read a).toNat = b.toNat / 100 ∧
      ((m.writeBytes a (bcdDigits b)).read (a + 1)).toNat = b.toNat / 10 % 10 ∧
      ((m.writeBytes a (bcdDigits b)).read (a + 2)).toNat = b.toNat % 10 := by
  have hb := b.isLt
  have hbyte : ∀ k (hk : k < 3), (m.writeBytes a (bcdDigits b)).read (a + k) = (bcdDigits b)[k] :=
    fun k hk => Memory.read_writeBytes_inside hk
  refine ⟨(congrArg BitVec.toNat (hbyte 0 (by decide))).trans ?_,
    (congrArg BitVec.toNat (hbyte 1 (by decide))).trans ?_, (congrArg BitVec.toNat (hbyte 2 (by decide))).trans ?_⟩
  all_goals exact Nat.mod_eq_of_lt (by omega)

/-- Settles O29: the stored block is the digits. -/
theorem storeBcdWritesDigits : Obligations.StoreBcdWritesDigits := by
  intro x s hb hp
  obtain ⟨hhundreds, htens, hones⟩ := Memory.toNat_read_writeBytes_bcdDigits s.mem s.i.toNat (s.reg x)
  exact ⟨rfl, _, storeBlock_of_inside (bs := bcdDigits (s.reg x)) hb hp (.ldB x), hhundreds, htens, hones,
    changesOnly_writeBytes s s.i.toNat (bcdDigits (s.reg x))⟩

/-- Once V0..Vx are stored at an address, the k-th byte from it is Vk (43_index_memory.md R122). -/
theorem Memory.read_writeBytes_regBlock (m : Memory) (a : Nat) (s : State) {x k : Reg} (hk : k.val ≤ x.val) :
    (m.writeBytes a (s.regBlock x)).read (a + k.val) = s.reg k := by
  have hlt : k.val < (s.regBlock x).length := by rw [State.length_regBlock]; omega
  rw [Memory.read_writeBytes_inside hlt, State.getElem_regBlock]

/-- Settles O30: the stored block is V0..Vx. -/
theorem storeBlockWritesRegisters : Obligations.StoreBlockWritesRegisters := by
  intro x s hb hp
  have hframe := changesOnly_writeBytes s s.i.toNat (s.regBlock x)
  rw [State.length_regBlock] at hframe
  exact ⟨rfl, _, storeBlock_of_inside (by rwa [State.length_regBlock]) hp (.ldMemVx x),
    fun k hk => Memory.read_writeBytes_regBlock _ _ s hk, hframe⟩

/-! ## Loading a block -/

theorem exec_ldVxMem_of_inside {x : Reg} {s : State} (h : s.i.toNat + x.val < memSize) :
    exec (.ldVxMem x) s = .next (s.setRegBlock (s.mem.readBytes s.i.toNat (x.val + 1))) := by
  rw [exec, execLdVxMem, State.dataAddress, memRead_of_inside (.inr h)]

/-- A register after n bytes are loaded from memory: its byte if it is one of the first n, its old value if not. -/
theorem State.reg_setRegBlock_readBytes (s : State) (a n : Nat) (k : Reg) :
    (s.setRegBlock (s.mem.readBytes a n)).reg k = if k.val < n then s.byte (a + k.val) else s.reg k := by
  simp [State.reg_setRegBlock, State.byte]

/-- Settles O31. -/
theorem loadBlockReadsRegisters : Obligations.LoadBlockReadsRegisters := by
  intro x s h
  refine ⟨_, exec_ldVxMem_of_inside h, fun k hk => ?_, fun k hk => ?_, changesOnly_setRegBlock (fun k hk => ?_) s⟩
  · rw [State.reg_setRegBlock_readBytes, if_pos (Nat.lt_succ_of_le hk)]
  · rw [State.reg_setRegBlock_readBytes, if_neg (by omega)]
  · rw [Memory.length_readBytes] at hk
    simpa using Nat.le_of_lt_succ hk

/-! ## The load undoes the store -/

/-- LD [I], Vx that leaves the latch clear lay in memory and left each of V0..Vx at its address. -/
theorem stored_of_exec_ldMemVx {x : Reg} {s t : State} (h : exec (.ldMemVx x) s = .next t) (ht : t.fault = none) :
    s.i.toNat + x.val < 4096 ∧ ∀ k : Reg, k.val ≤ x.val → t.byte (s.i.toNat + k.val) = s.reg k := by
  rcases storeBlock_cases h with ⟨hb, -, rfl⟩ | ⟨-, h⟩ | ⟨-, -, -, h⟩
  · rw [State.length_regBlock] at hb
    exact ⟨hb, fun k hk => Memory.read_writeBytes_regBlock _ _ s hk⟩
  · cases h; cases ht
  · cases h; cases ht

/-- Settles O33: the load reads the bytes the store left, which are the registers at the store. -/
theorem loadBlockUndoesStoreBlock : Obligations.LoadBlockUndoesStoreBlock := by
  intro x s t u h ht hi hkept
  obtain ⟨hb, hstored⟩ := stored_of_exec_ldMemVx h ht
  obtain ⟨w, hw, hloaded, -⟩ := loadBlockReadsRegisters x u (by rwa [hi])
  refine ⟨w, hw, fun k hk => ?_⟩
  calc w.reg k = u.byte (s.i.toNat + k.val) := by rw [hloaded k hk, hi]
    _ = t.byte (s.i.toNat + k.val) := hkept k.val hk
    _ = s.reg k := hstored k hk

end Sys2Proof.Machine
end

section
/-! PROOFS. The keypad and the timers (44_keypad_timers.md): skips on a key line, the wait for a key, and the timer
instructions with the tick of their step. -/

namespace Sys2Proof.Machine

/-! ## Waiting for a key -/

/-- The scan finds the pressed line below which none is pressed: a line it finds is neither above nor below that one
(44_keypad_timers.md R130). -/
theorem State.firstPressed_of_lowest {s : State} {k : KeyIx} (hk : s.keyPressed k = true)
    (hlow : ∀ j, j < k → s.keyPressed j = false) : s.firstPressed = some k := by
  cases h : s.firstPressed with
  | none => simp [State.firstPressed_eq_none.1 h k] at hk
  | some j =>
    obtain ⟨hj, hjlow⟩ := State.firstPressed_eq_some h
    rcases lt_trichotomy j k with hlt | rfl | hgt
    · simp [hlow j hlt] at hj
    · rfl
    · simp [hjlow k hgt] at hk

theorem exec_ldVxK_of_some {s : State} {k : KeyIx} (h : s.firstPressed = some k) (x : Reg) :
    exec (.ldVxK x) s = .next (s.setReg x (BitVec.ofNat 8 k.val)) := by
  rw [exec, execLdVxK, h]

theorem exec_ldVxK_of_none {s : State} (h : s.firstPressed = none) (x : Reg) :
    exec (.ldVxK x) s = .next s.rewindPc := by
  rw [exec, execLdVxK, h]

/-- Settles O37: the scan finds the lowest pressed line, or nothing when none is pressed. -/
theorem waitForKeyTakesLowestOrRearms : Obligations.WaitForKeyTakesLowestOrRearms := by
  refine fun x s => ⟨fun k hk hlow => ?_, fun hnone => ?_⟩
  · refine ⟨_, exec_ldVxK_of_some (State.firstPressed_of_lowest hk hlow) x, ?_, changesOnly_setReg_singleton s x _⟩
    rw [State.reg_setReg_same, BitVec.toNat_ofNat]
    omega
  · exact ⟨_, exec_ldVxK_of_none (State.firstPressed_eq_none.2 hnone) x, rfl, changesOnly_setPc rfl s _⟩

/-! ## Skips on a key line -/

theorem exec_skp_of_lt {x : Reg} {s : State} (h : (s.reg x).toNat < 16) (pad : BitVec 4) :
    exec (.skp x pad) s = .next (s.skipIf (s.keyPressed ⟨(s.reg x).toNat, h⟩)) := by
  rw [exec, execSkp, keyIndex_of_lt h]

theorem exec_sknp_of_lt {x : Reg} {s : State} (h : (s.reg x).toNat < 16) (pad : BitVec 4) :
    exec (.sknp x pad) s = .next (s.skipIf (!s.keyPressed ⟨(s.reg x).toNat, h⟩)) := by
  rw [exec, execSknp, keyIndex_of_lt h]

/-- Settles O35. -/
theorem skipOnKey : Obligations.SkipOnKey := by
  refine fun x pad s h => ⟨⟨_, exec_skp_of_lt h pad, fun hk => ?_, fun hk => ?_, changesOnly_skipIf rfl s _⟩,
    ⟨_, exec_sknp_of_lt h pad, fun hk => ?_, fun hk => ?_, changesOnly_skipIf rfl s _⟩⟩
  · exact State.pc_skipIf_of_true hk s
  · exact State.pc_skipIf_of_false hk s
  · exact State.pc_skipIf_of_true (congrArg not hk) s
  · exact State.pc_skipIf_of_false (congrArg not hk) s

theorem exec_skp_of_ge {x : Reg} {s : State} (h : 15 < (s.reg x).toNat) (pad : BitVec 4) :
    exec (.skp x pad) s = raise (.skp x pad) .keyIndex (some (s.reg x).toNat) none s := by
  rw [exec, execSkp, keyIndex_of_ge h]

theorem exec_sknp_of_ge {x : Reg} {s : State} (h : 15 < (s.reg x).toNat) (pad : BitVec 4) :
    exec (.sknp x pad) s = raise (.sknp x pad) .keyIndex (some (s.reg x).toNat) none s := by
  rw [exec, execSknp, keyIndex_of_ge h]

/-- Settles O36: both meanings raise, and `fault_of_exec_eq_raise` says what that does. -/
theorem keyIndexFaultIsTaken : Obligations.KeyIndexFaultIsTaken := by
  rintro i x pad s (rfl | rfl) h
  · exact fault_of_exec_eq_raise (exec_skp_of_ge h pad)
  · exact fault_of_exec_eq_raise (exec_sknp_of_ge h pad)

/-! ## The timer instructions -/

/-- Settles O38. -/
theorem readDelayTimer : Obligations.ReadDelayTimer :=
  fun x s => ⟨_, rfl, s.reg_setReg_same x s.dt, changesOnly_setReg_singleton s x s.dt⟩

/-- An instruction runs only on a core without a fault, from a word that was fetched and that decodes to it
(30_encoding.md R70). -/
theorem State.decode_of_running {s : State} {i : Instr} (h : s.running = some i) :
    s.fault = none ∧ ∃ w, s.fetch = some w ∧ decode s.params w = .ok i := by
  unfold State.running at h
  split at h
  · rename_i hs
    split at h
    · cases h
    · rename_i w hw
      split at h
      · rename_i j hj
        cases h
        exact ⟨hs, w, hw, hj⟩
      · cases h
  · cases h

/-- The step of a running instruction that leaves the latch alone ends with the tick and the next inputs
(30_encoding.md R70). -/
theorem step_of_running {s u : State} {i : Instr} (h : s.running = some i) (he : exec i s.advancePc = .next u)
    (hf : u.fault = s.fault) : step s = .next u.tick.nextInput := by
  obtain ⟨hs, w, hw, hi⟩ := State.decode_of_running h
  rw [step_of_decode hs hw hi, he, finishStep_completed (hf.trans hs)]

/-- Settles O39: the state that the tick finds holds Vx in the timer. -/
theorem writeTimersThenTick : Obligations.WriteTimersThenTick := by
  refine ⟨rowDecodes_catKk 0xF 0x15 fun p w hc hk => by simp [decode, decodeCatF, hc, hk],
    rowDecodes_catKk 0xF 0x18 fun p w hc hk => by simp [decode, decodeCatF, hc, hk], fun x s => ?_⟩
  refine ⟨⟨_, rfl, rfl, changesOnly_setDt rfl s _⟩, ⟨_, rfl, rfl, changesOnly_setSt rfl s _⟩, fun h => ?_,
    fun h => ?_⟩
  · refine ⟨_, step_of_running h rfl rfl, ?_⟩
    rw [State.nextInput_dt, State.tick_dt, toNat_tickTimer, State.setDt_dt, State.reg_advancePc]
  · have hst : (s.advancePc.setSt (s.advancePc.reg x)).tick.nextInput.st.toNat = (s.reg x).toNat - 1 := by
      rw [State.nextInput_st, State.tick_st, toNat_tickTimer, State.setSt_st, State.reg_advancePc]
    refine ⟨_, step_of_running h rfl rfl, hst, ?_⟩
    rw [State.soundActive_iff, hst]
    exact Nat.sub_ne_zero_iff_lt

end Sys2Proof.Machine
end

section
/-! PROOFS. Faults (60_exceptions.md): what a step that latches a fault does and records, which instructions fault, and
that a core without a fault always steps. -/

namespace Sys2Proof.Machine

/-! ## A step that latches a fault -/

/-- An instruction that latches a fault in phase 3 gives back the state before the fetch but for the latch, with a
consistent record that names the instruction's address (60_exceptions.md R140, R141). -/
theorem latched_of_exec {i : Instr} {s u : State} (hs : s.fault = none) (h : exec i s.advancePc = .next u)
    (hu : u.fault ≠ none) : ∃ r, u = s.latch r ∧ r.pc = s.pc ∧ r.consistent := by
  rcases exec_cases h with hc | ⟨kind, addr, access, -, hcons, rfl⟩
  · exact absurd (hc.fault_eq.trans hs) hu
  · refine ⟨_, by rw [State.rewindPc_advancePc], ?_, hcons⟩
    simp [faultRecordOf]

/-- A fetch out of bounds latches a consistent record that names PC, and changes nothing else (20_memory.md R47;
decision D26). -/
theorem latched_of_raiseFetch {s t : State} (h : raiseFetch s = .next t) :
    ∃ r, t = s.latch r ∧ r.pc = s.pc ∧ r.consistent := by
  cases h
  exact ⟨_, rfl, rfl, ⟨_, rfl, Nat.le_max_right _ _⟩, .inl ⟨rfl, rfl⟩⟩

/-- A step that latches a fault, in the fetch or in the instruction, changes the latch alone, and the record is
consistent and names PC (60_exceptions.md R140, R141). -/
theorem step_latched {s t : State} {r : FaultRecord} (h : step s = .next t) (ht : t.fault = some r) :
    t = s.latch r ∧ r.pc = s.pc ∧ r.consistent := by
  have hlatched : ∃ r', t = s.latch r' ∧ r'.pc = s.pc ∧ r'.consistent := by
    obtain ⟨hs, ⟨-, hf⟩ | ⟨w, i, u, -, -, hu, ⟨hn, rfl⟩ | ⟨hn, rfl⟩⟩ | ⟨w, e, -, -, rfl⟩⟩ := step_cases h
    · exact latched_of_raiseFetch hf
    · simp [hn] at ht
    · exact latched_of_exec hs hu hn
    · simp [hs] at ht
  obtain ⟨r', rfl, hpc, hcons⟩ := hlatched
  cases ht
  exact ⟨rfl, hpc, hcons⟩

/-- Settles O47: a record latched after the step was latched by it, since a faulted core does not step. -/
theorem stepKeepsLatchConsistent : Obligations.StepKeepsLatchConsistent := by
  intro s t _ h r ht
  obtain ⟨rfl, hpc, hcons⟩ := step_latched h ht
  exact ⟨hpc, hcons⟩

/-- Settles O49. -/
theorem faultsArePrecise : Obligations.FaultsArePrecise := by
  intro s t r h ht
  obtain ⟨rfl, hpc, -⟩ := step_latched h ht
  exact ⟨rfl, hpc⟩

/-! ## The faults of an instruction -/

/-- Settles O50: an instruction completes outside the tabled cases and leaves the latch, or it latches the tabled
fault. -/
theorem onlyTabledFaultsAreRaised : Obligations.OnlyTabledFaultsAreRaised := by
  intro i s t hs h
  rcases exec_cases h with hc | ⟨kind, addr, access, hkind, -, rfl⟩
  · rw [hc.fault_eq, hs]
    exact ⟨hc.noFault.symm, nofun⟩
  · refine ⟨hkind.symm, fun r hr => ?_⟩
    cases hr
    exact ⟨rfl, rfl⟩

theorem exec_call_of_full {s : State} (h : s.sp.val = 16) (nnn : BitVec 12) :
    exec (.call nnn) s = raise (.call nnn) .stackOverflow none none s := by
  rw [exec, execCall, State.push_of_full h]

theorem exec_ret_of_zero {s : State} (h : s.sp.val = 0) (pad : Byte) :
    exec (.ret pad) s = raise (.ret pad) .stackUnderflow none none s := by
  rw [exec, execRet, State.pop_of_zero h]

/-- Settles O10: both meanings raise, and `fault_of_exec_eq_raise` says what that does. -/
theorem stackFaultsAreTaken : Obligations.StackFaultsAreTaken :=
  ⟨fun nnn _ h => fault_of_exec_eq_raise (exec_call_of_full h nnn),
    fun pad _ h => fault_of_exec_eq_raise (exec_ret_of_zero h pad)⟩

/-! ## Every step of a core without a fault answers a next state -/

theorem exists_raiseMem (i : Instr) (e : MemFault) (s : State) : ∃ t, raiseMem i e s = .next t := by
  cases e
  · exact ⟨_, rfl⟩
  · exact ⟨_, rfl⟩

theorem exists_storeBlock (i : Instr) (bs : List Byte) (s : State) : ∃ t, storeBlock i bs s = .next t := by
  unfold storeBlock
  split
  · exact exists_raiseMem i _ s
  · exact ⟨_, rfl⟩

/-- Every instruction answers a next state: a fault, too, is one, with the latch set (log entry 1). -/
theorem exists_exec (i : Instr) (s : State) : ∃ t, exec i s = .next t := by
  cases i
  case ret => simp only [exec, execRet]; split <;> exact ⟨_, rfl⟩
  case call => simp only [exec, execCall]; split <;> exact ⟨_, rfl⟩
  case skp => simp only [exec, execSkp]; split <;> exact ⟨_, rfl⟩
  case sknp => simp only [exec, execSknp]; split <;> exact ⟨_, rfl⟩
  case ldVxK => simp only [exec, execLdVxK]; split <;> exact ⟨_, rfl⟩
  case drw =>
    simp only [exec, execDrw]
    split
    · exact exists_raiseMem _ _ s
    · exact ⟨_, rfl⟩
  case ldVxMem =>
    simp only [exec, execLdVxMem]
    split
    · exact exists_raiseMem _ _ s
    · exact ⟨_, rfl⟩
  case ldB => exact exists_storeBlock _ _ s
  case ldMemVx => exact exists_storeBlock _ _ s
  all_goals exact ⟨_, rfl⟩

theorem exists_finishStep (u : State) : ∃ t, finishStep (.next u) = .next t := by
  by_cases hu : u.fault = none
  · exact ⟨_, finishStep_completed hu⟩
  · exact ⟨_, finishStep_faulted hu⟩

theorem exists_step {s : State} (hs : s.fault = none) : ∃ t, step s = .next t := by
  cases hw : s.fetch with
  | none => exact ⟨_, step_of_no_fetch hs hw⟩
  | some w =>
    cases hi : decode s.params w with
    | error e => exact ⟨_, step_of_undefined hs hw hi⟩
    | ok i =>
      obtain ⟨u, hu⟩ := exists_exec i s.advancePc
      rw [step_of_decode hs hw hi, hu]
      exact exists_finishStep u

/-- Settles O51. -/
theorem onlyFaultedCoreStops : Obligations.OnlyFaultedCoreStops :=
  fun _ => ⟨exists_step, fun _ => step_of_fault⟩

end Sys2Proof.Machine
end
